-- ==== Sys2Proof/Word.lean ====
section
/-!
DEFINITION. The two word types of the machine: the 16-bit word, the one unit of storage, addressing and
instruction (spec 00_scope R5, R9; 20_memory R34), and the 8-bit byte of the console channels (44_trap R113).
-/

namespace Sys2Proof

/-- The fixed 16-bit unit of storage and addressing (00_scope R5, GLOSSARY "Word"). `+` on it wraps modulo 65536 (R9). -/
abbrev Word := BitVec 16

/-- The 8-bit value the console channels carry (44_trap R113, R115). -/
abbrev Byte := BitVec 8

end Sys2Proof
end

