-- ==== Sys2Proof/Syntax.lean ====
section
/-!
DEFINITION. The instructions: one constructor for each of the 26 rows of spec/opcode_table.json, with every field
of the row's word, the don't-care bits and the reserved payloads included (spec 30_encoding R52, R66; 92 D23).
-/

namespace Sys2Proof

/-- The eight general registers R0–R7 (10_state R14). -/
inductive Reg where
  | r0 | r1 | r2 | r3 | r4 | r5 | r6 | r7
  deriving DecidableEq, Repr

/-- The sixteen opcode variants, "making the two reserved codes explicit variants" (30_encoding R51, R60). -/
inductive Opcode where
  | br | add | ld | st | jsr | and | ldr | str | reserved8 | not | ldi | sti | jmp | reserved13 | lea | trap
  deriving DecidableEq, Repr

/-- The six trap routines (30_encoding R64). -/
inductive TrapRoutine where
  | getc | out | puts | in_ | putsp | halt
  deriving DecidableEq, Repr

/-- One instruction. `dc`, `dcHi` and `dcLo` are don't-care fields (R62): kept, never read by a meaning. -/
inductive Instr where
  /-- BR: the mask bits n, z, p and PCoffset9 (43_control_transfer R105) -/
  | br (n z p : Bool) (off9 : BitVec 9)
  /-- ADD, register form (41_arith_logic R88) -/
  | addReg (dr sr1 : Reg) (dc : BitVec 2) (sr2 : Reg)
  /-- ADD, immediate form (R89) -/
  | addImm (dr sr1 : Reg) (imm5 : BitVec 5)
  /-- LD (42_data_movement R95) -/
  | ld (dr : Reg) (off9 : BitVec 9)
  /-- ST (R99) -/
  | st (sr : Reg) (off9 : BitVec 9)
  /-- JSR (43_control_transfer R108) -/
  | jsr (off11 : BitVec 11)
  /-- JSRR (R109) -/
  | jsrr (dcHi : BitVec 2) (baseR : Reg) (dcLo : BitVec 6)
  /-- AND, register form (41_arith_logic R90) -/
  | andReg (dr sr1 : Reg) (dc : BitVec 2) (sr2 : Reg)
  /-- AND, immediate form (R91) -/
  | andImm (dr sr1 : Reg) (imm5 : BitVec 5)
  /-- LDR (42_data_movement R97) -/
  | ldr (dr baseR : Reg) (off6 : BitVec 6)
  /-- STR (R101) -/
  | str (sr baseR : Reg) (off6 : BitVec 6)
  /-- the reserved opcode 8 and its 12-bit payload (40_execution_loop R74) -/
  | reserved8 (payload : BitVec 12)
  /-- NOT (41_arith_logic R92) -/
  | not (dr sr : Reg) (dc : BitVec 6)
  /-- LDI (42_data_movement R96) -/
  | ldi (dr : Reg) (off9 : BitVec 9)
  /-- STI (R100) -/
  | sti (sr : Reg) (off9 : BitVec 9)
  /-- JMP (43_control_transfer R106); with BaseR = R7 the word is RET's -/
  | jmp (dcHi : BitVec 3) (baseR : Reg) (dcLo : BitVec 6)
  /-- RET, JMP's word with BaseR = 111 (R107) -/
  | ret (dcHi : BitVec 3) (dcLo : BitVec 6)
  /-- the reserved opcode 13 and its 12-bit payload (40_execution_loop R74) -/
  | reserved13 (payload : BitVec 12)
  /-- LEA (42_data_movement R98) -/
  | lea (dr : Reg) (off9 : BitVec 9)
  /-- TRAP with its vector (44_trap R114); with a vector of R64 the word is the routine's -/
  | trap (dc : BitVec 4) (trapvect8 : BitVec 8)
  /-- TRAP x20 (R116) -/
  | getc (dc : BitVec 4)
  /-- TRAP x21 (R117) -/
  | out (dc : BitVec 4)
  /-- TRAP x22 (R118) -/
  | puts (dc : BitVec 4)
  /-- TRAP x23 (R119) -/
  | in_ (dc : BitVec 4)
  /-- TRAP x24 (R120) -/
  | putsp (dc : BitVec 4)
  /-- TRAP x25 (R121) -/
  | halt (dc : BitVec 4)
  deriving DecidableEq, Repr

end Sys2Proof
end

