-- ==== Sys2Proof/WellFormed.lean ====
section
/-!
DEFINITION. Which instruction terms stand for a word. The widths of all fields are in their types; the two checks left
are that a word has ONE decoded form (spec 30_encoding R65): JMP R7 is RET (43_control_transfer R107), and a TRAP with a
vector of R64 is that routine (log entry 11). An ill-formed term has its meaning all the same.
-/

namespace Sys2Proof

/-- The vectors 0x20–0x25 of the six routines (30_encoding R64; 92_eei_decisions D4, log entry 13). -/
def namedVector (v : BitVec 8) : Bool := decide (0x20#8 ≤ v) && decide (v ≤ 0x25#8)

/-- `JMP`'s constructor does not stand for RET's word, nor `TRAP`'s for a named routine's word; every other term is
well-formed. -/
def Instr.wf : Instr → Bool
  | .jmp _ baseR _ => decide (baseR ≠ .r7)
  | .trap _ v => !namedVector v
  | .br .. | .addReg .. | .addImm .. | .ld .. | .st .. | .jsr .. | .jsrr .. | .andReg .. | .andImm .. | .ldr ..
  | .str .. | .reserved8 .. | .not .. | .ldi .. | .sti .. | .ret .. | .reserved13 .. | .lea .. | .getc .. | .out ..
  | .puts .. | .in_ .. | .putsp .. | .halt .. => true

end Sys2Proof
end

