-- ==== Sys2Proof/Decode.lean ====
section
/-!
DEFINITION. The decoder, total on all 65536 words (spec 30_encoding R65), the decoder of a byte sequence, which rejects
a truncated word by name, and after them the encoder, written from the formats of R52 and the opcode map of R60.
Opcode numbers: 92_eei_decisions D3 (log entry 12). Trap vectors: D4 (log entry 13).
-/

namespace Sys2Proof

/-- `w[lo+len-1 : lo]` as a `len`-bit number (00_scope R7). -/
def field (w : Word) (lo len : Nat) : BitVec len := w.extractLsb' lo len

/-- `w[i]` (00_scope R7). -/
def bit (w : Word) (i : Nat) : Bool := w.getLsbD i

/-- A field's bits at `w[lo+len-1 : lo]` of a word that is 0 elsewhere (00_scope R7). -/
def place {len : Nat} (lo : Nat) (x : BitVec len) : Word := x.setWidth 16 <<< lo

/-- A 3-bit index names a register: value `i` selects `Ri` (10_state R14, 30_encoding R59). -/
def Reg.ofBits (b : BitVec 3) : Reg :=
  match b.getLsbD 2, b.getLsbD 1, b.getLsbD 0 with
  | false, false, false => .r0
  | false, false, true => .r1
  | false, true, false => .r2
  | false, true, true => .r3
  | true, false, false => .r4
  | true, false, true => .r5
  | true, true, false => .r6
  | true, true, true => .r7

/-- The index of a register. -/
def Reg.toBits : Reg → BitVec 3
  | .r0 => 0b000#3
  | .r1 => 0b001#3
  | .r2 => 0b010#3
  | .r3 => 0b011#3
  | .r4 => 0b100#3
  | .r5 => 0b101#3
  | .r6 => 0b110#3
  | .r7 => 0b111#3

/-- The opcode map of R60, exhaustive with no default arm (R51, 40_execution_loop R73). -/
def Opcode.ofBits (b : BitVec 4) : Opcode :=
  match b.getLsbD 3, b.getLsbD 2, b.getLsbD 1, b.getLsbD 0 with
  | false, false, false, false => .br
  | false, false, false, true => .add
  | false, false, true, false => .ld
  | false, false, true, true => .st
  | false, true, false, false => .jsr
  | false, true, false, true => .and
  | false, true, true, false => .ldr
  | false, true, true, true => .str
  | true, false, false, false => .reserved8
  | true, false, false, true => .not
  | true, false, true, false => .ldi
  | true, false, true, true => .sti
  | true, true, false, false => .jmp
  | true, true, false, true => .reserved13
  | true, true, true, false => .lea
  | true, true, true, true => .trap

/-- The trap vectors of R64; `none` for the 250 others. -/
def TrapRoutine.ofVector (v : BitVec 8) : Option TrapRoutine :=
  if v = 0x20#8 then some .getc
  else if v = 0x21#8 then some .out
  else if v = 0x22#8 then some .puts
  else if v = 0x23#8 then some .in_
  else if v = 0x24#8 then some .putsp
  else if v = 0x25#8 then some .halt
  else none

/-- The vector of a routine (R64). -/
def TrapRoutine.vector : TrapRoutine → BitVec 8
  | .getc => 0x20#8
  | .out => 0x21#8
  | .puts => 0x22#8
  | .in_ => 0x23#8
  | .putsp => 0x24#8
  | .halt => 0x25#8

/-- DR, or SR of a store: `w[11:9]` (R53). -/
def drOf (w : Word) : Reg := Reg.ofBits (field w 9 3)

/-- SR1, SR of NOT, or BaseR: `w[8:6]` (R53). -/
def baseOf (w : Word) : Reg := Reg.ofBits (field w 6 3)

/-- SR2: `w[2:0]` (R53). -/
def sr2Of (w : Word) : Reg := Reg.ofBits (field w 0 3)

/-- ADD and AND: `w[5]` selects the register or the immediate form (R61). -/
def decodeAlu (w : Word) (regForm : Reg → Reg → BitVec 2 → Reg → Instr) (immForm : Reg → Reg → BitVec 5 → Instr) : Instr :=
  if bit w 5 then immForm (drOf w) (baseOf w) (field w 0 5)
  else regForm (drOf w) (baseOf w) (field w 3 2) (sr2Of w)

/-- Opcode 4: `w[11]` selects JSR or JSRR (R61). -/
def decodeJsr (w : Word) : Instr :=
  if bit w 11 then .jsr (field w 0 11) else .jsrr (field w 9 2) (baseOf w) (field w 0 6)

/-- Opcode 12: JMP, or RET when BaseR = 111 (R52, 43_control_transfer R107). -/
def decodeJmp (w : Word) : Instr :=
  if baseOf w = .r7 then .ret (field w 9 3) (field w 0 6) else .jmp (field w 9 3) (baseOf w) (field w 0 6)

/-- Opcode 15: the routine `trapvect8` names, or TRAP with an unknown vector (R64). -/
def decodeTrap (w : Word) : Instr :=
  match TrapRoutine.ofVector (field w 0 8) with
  | some .getc => .getc (field w 8 4)
  | some .out => .out (field w 8 4)
  | some .puts => .puts (field w 8 4)
  | some .in_ => .in_ (field w 8 4)
  | some .putsp => .putsp (field w 8 4)
  | some .halt => .halt (field w 8 4)
  | none => .trap (field w 8 4) (field w 0 8)

/-- The decoder: a pure function of the word (40_execution_loop R72), total (R65), losing no bit (R66). -/
def decode (w : Word) : Instr :=
  match Opcode.ofBits (field w 12 4) with
  | .br => .br (bit w 11) (bit w 10) (bit w 9) (field w 0 9)
  | .add => decodeAlu w .addReg .addImm
  | .ld => .ld (drOf w) (field w 0 9)
  | .st => .st (drOf w) (field w 0 9)
  | .jsr => decodeJsr w
  | .and => decodeAlu w .andReg .andImm
  | .ldr => .ldr (drOf w) (baseOf w) (field w 0 6)
  | .str => .str (drOf w) (baseOf w) (field w 0 6)
  | .reserved8 => .reserved8 (field w 0 12)
  | .not => .not (drOf w) (baseOf w) (field w 0 6)
  | .ldi => .ldi (drOf w) (field w 0 9)
  | .sti => .sti (drOf w) (field w 0 9)
  | .jmp => decodeJmp w
  | .reserved13 => .reserved13 (field w 0 12)
  | .lea => .lea (drOf w) (field w 0 9)
  | .trap => decodeTrap w

/-- Why a byte sequence is no instruction: every instruction is one whole word (R50), so only a missing byte can be. -/
inductive DecodeRefusal where
  /-- fewer than two bytes are left -/
  | truncated
  deriving DecidableEq, Repr

/-- `(hi << 8) | lo`: two bytes make a word, the high byte first (20_memory R40, 70_reset_and_hazards R150). -/
def wordOfBytes (hi lo : Byte) : Word := place 8 hi ||| place 0 lo

/-- The two bytes of a word in that order. -/
def bytesOfWord (w : Word) : List Byte := [field w 8 8, field w 0 8]

/-- The first instruction of a byte sequence and the bytes after it (log entry 24). -/
def decodeBytes : List Byte → Except DecodeRefusal (Instr × List Byte)
  | hi :: lo :: rest => .ok (decode (wordOfBytes hi lo), rest)
  | [_] => .error .truncated
  | [] => .error .truncated

/-- The word an opcode-table row's number stands for: its low `nbits` bits, the bits above them 0. -/
def tableWord (nbits w : Nat) : Word := BitVec.ofNat 16 (w % 2 ^ nbits)

/-- The instruction the decoder reads from the word the host numbers as the opcode table does. -/
def decodeTableWord (nbits w : Nat) : Option Instr :=
  match decodeBytes (bytesOfWord (tableWord nbits w)) with
  | .ok (i, _) => some i
  | .error _ => none

/-- One bit as a field. -/
def bitField (b : Bool) : BitVec 1 := BitVec.ofBool b

/-- TRAP's format: `1111`, w[11:8], trapvect8 (R52). -/
def encodeTrap (dc : BitVec 4) (v : BitVec 8) : Word := place 12 0b1111#4 ||| place 8 dc ||| place 0 v

/-- The encoder, one line per format of R52: every field at its place. -/
def encode : Instr → Word
  | .br n z p off9 => place 12 0b0000#4 ||| place 11 (bitField n) ||| place 10 (bitField z) ||| place 9 (bitField p) ||| place 0 off9
  | .addReg dr sr1 dc sr2 => place 12 0b0001#4 ||| place 9 dr.toBits ||| place 6 sr1.toBits ||| place 5 0b0#1 ||| place 3 dc ||| place 0 sr2.toBits
  | .addImm dr sr1 imm5 => place 12 0b0001#4 ||| place 9 dr.toBits ||| place 6 sr1.toBits ||| place 5 0b1#1 ||| place 0 imm5
  | .ld dr off9 => place 12 0b0010#4 ||| place 9 dr.toBits ||| place 0 off9
  | .st sr off9 => place 12 0b0011#4 ||| place 9 sr.toBits ||| place 0 off9
  | .jsr off11 => place 12 0b0100#4 ||| place 11 0b1#1 ||| place 0 off11
  | .jsrr dcHi baseR dcLo => place 12 0b0100#4 ||| place 11 0b0#1 ||| place 9 dcHi ||| place 6 baseR.toBits ||| place 0 dcLo
  | .andReg dr sr1 dc sr2 => place 12 0b0101#4 ||| place 9 dr.toBits ||| place 6 sr1.toBits ||| place 5 0b0#1 ||| place 3 dc ||| place 0 sr2.toBits
  | .andImm dr sr1 imm5 => place 12 0b0101#4 ||| place 9 dr.toBits ||| place 6 sr1.toBits ||| place 5 0b1#1 ||| place 0 imm5
  | .ldr dr baseR off6 => place 12 0b0110#4 ||| place 9 dr.toBits ||| place 6 baseR.toBits ||| place 0 off6
  | .str sr baseR off6 => place 12 0b0111#4 ||| place 9 sr.toBits ||| place 6 baseR.toBits ||| place 0 off6
  | .reserved8 payload => place 12 0b1000#4 ||| place 0 payload
  | .not dr sr dc => place 12 0b1001#4 ||| place 9 dr.toBits ||| place 6 sr.toBits ||| place 0 dc
  | .ldi dr off9 => place 12 0b1010#4 ||| place 9 dr.toBits ||| place 0 off9
  | .sti sr off9 => place 12 0b1011#4 ||| place 9 sr.toBits ||| place 0 off9
  | .jmp dcHi baseR dcLo => place 12 0b1100#4 ||| place 9 dcHi ||| place 6 baseR.toBits ||| place 0 dcLo
  | .ret dcHi dcLo => place 12 0b1100#4 ||| place 9 dcHi ||| place 6 0b111#3 ||| place 0 dcLo
  | .reserved13 payload => place 12 0b1101#4 ||| place 0 payload
  | .lea dr off9 => place 12 0b1110#4 ||| place 9 dr.toBits ||| place 0 off9
  | .trap dc v => encodeTrap dc v
  | .getc dc => encodeTrap dc TrapRoutine.getc.vector
  | .out dc => encodeTrap dc TrapRoutine.out.vector
  | .puts dc => encodeTrap dc TrapRoutine.puts.vector
  | .in_ dc => encodeTrap dc TrapRoutine.in_.vector
  | .putsp dc => encodeTrap dc TrapRoutine.putsp.vector
  | .halt dc => encodeTrap dc TrapRoutine.halt.vector

/-- The opcode each term's words carry (R60). -/
def Instr.opcode : Instr → Opcode
  | .br .. => .br
  | .addReg .. | .addImm .. => .add
  | .ld .. => .ld
  | .st .. => .st
  | .jsr .. | .jsrr .. => .jsr
  | .andReg .. | .andImm .. => .and
  | .ldr .. => .ldr
  | .str .. => .str
  | .reserved8 .. => .reserved8
  | .not .. => .not
  | .ldi .. => .ldi
  | .sti .. => .sti
  | .jmp .. | .ret .. => .jmp
  | .reserved13 .. => .reserved13
  | .lea .. => .lea
  | .trap .. | .getc .. | .out .. | .puts .. | .in_ .. | .putsp .. | .halt .. => .trap

/-- The row's mask in spec/opcode_table.json. -/
def Instr.rowMask : Instr → Word
  | .addReg .. | .addImm .. | .andReg .. | .andImm .. => 0xF020#16
  | .jsr .. | .jsrr .. => 0xF800#16
  | .ret .. => 0xF1C0#16
  | .getc .. | .out .. | .puts .. | .in_ .. | .putsp .. | .halt .. => 0xF0FF#16
  | .br .. | .ld .. | .st .. | .ldr .. | .str .. | .reserved8 .. | .not .. | .ldi .. | .sti .. | .jmp ..
  | .reserved13 .. | .lea .. | .trap .. => 0xF000#16

/-- The row's match in spec/opcode_table.json. -/
def Instr.rowMatch : Instr → Word
  | .br .. => 0x0000#16
  | .addReg .. => 0x1000#16
  | .addImm .. => 0x1020#16
  | .ld .. => 0x2000#16
  | .st .. => 0x3000#16
  | .jsr .. => 0x4800#16
  | .jsrr .. => 0x4000#16
  | .andReg .. => 0x5000#16
  | .andImm .. => 0x5020#16
  | .ldr .. => 0x6000#16
  | .str .. => 0x7000#16
  | .reserved8 .. => 0x8000#16
  | .not .. => 0x9000#16
  | .ldi .. => 0xA000#16
  | .sti .. => 0xB000#16
  | .jmp .. => 0xC000#16
  | .ret .. => 0xC1C0#16
  | .reserved13 .. => 0xD000#16
  | .lea .. => 0xE000#16
  | .trap .. => 0xF000#16
  | .getc .. => 0xF020#16
  | .out .. => 0xF021#16
  | .puts .. => 0xF022#16
  | .in_ .. => 0xF023#16
  | .putsp .. => 0xF024#16
  | .halt .. => 0xF025#16

/-- The same instruction with the canonical value in every don't-care field (R52, R63). -/
def Instr.canonical : Instr → Instr
  | .addReg dr sr1 _ sr2 => .addReg dr sr1 0b00#2 sr2
  | .andReg dr sr1 _ sr2 => .andReg dr sr1 0b00#2 sr2
  | .not dr sr _ => .not dr sr 0b111111#6
  | .jmp _ baseR _ => .jmp 0b000#3 baseR 0b000000#6
  | .ret _ _ => .ret 0b000#3 0b000000#6
  | .jsrr _ baseR _ => .jsrr 0b00#2 baseR 0b000000#6
  | .trap _ v => .trap 0b0000#4 v
  | .getc _ => .getc 0b0000#4
  | .out _ => .out 0b0000#4
  | .puts _ => .puts 0b0000#4
  | .in_ _ => .in_ 0b0000#4
  | .putsp _ => .putsp 0b0000#4
  | .halt _ => .halt 0b0000#4
  | .br n z p off9 => .br n z p off9
  | .addImm dr sr1 imm5 => .addImm dr sr1 imm5
  | .andImm dr sr1 imm5 => .andImm dr sr1 imm5
  | .ld dr off9 => .ld dr off9
  | .st sr off9 => .st sr off9
  | .jsr off11 => .jsr off11
  | .ldr dr baseR off6 => .ldr dr baseR off6
  | .str sr baseR off6 => .str sr baseR off6
  | .reserved8 payload => .reserved8 payload
  | .ldi dr off9 => .ldi dr off9
  | .sti sr off9 => .sti sr off9
  | .reserved13 payload => .reserved13 payload
  | .lea dr off9 => .lea dr off9

/-- The NOP of R68: BR with n = z = p = 0, canonically 0x0000. -/
def Instr.nop : Instr := .br false false false 0#9

/-- `BR label` without letters is BRnzp (R68). -/
def Instr.brAlways (off9 : BitVec 9) : Instr := .br true true true off9

end Sys2Proof
end

