-- ==== Sys2Proof/Config.lean ====
section
/-!
DEFINITION. The parameters the source does not fix (spec 00_scope R6): "A model takes each one as an argument".
They are plain data held in State (log entry 2), so that a statement over every state holds for every value of them.
-/

namespace Sys2Proof

/-- Whether the loader takes a leading word of the image as its load address (70_reset_and_hazards R151). -/
inductive LoaderOriginMode where
  /-- every image word is program data, loaded at `PC_START` (the spec's default) -/
  | fixedStart
  /-- the first image word is the load address of the rest -/
  | originWord
  deriving DecidableEq, Repr

/-- The four parameters of 00_scope R6. -/
structure Config where
  /-- `PC_START`: the value PC has at reset and the address of the first image word. -/
  pcStart : Word
  /-- `TRAP_LINKS_R7`: whether TRAP writes the incremented PC into R7. -/
  trapLinksR7 : Bool
  /-- `IN_PROMPT`: the bytes the IN routine writes before it reads. -/
  inPrompt : List Byte
  /-- `LOADER_ORIGIN_MODE`: read by the loader alone; the core never sees it. -/
  loaderOriginMode : LoaderOriginMode
  deriving DecidableEq, Repr

/-- The defaults of 00_scope R6: `PC_START` = 0x3000 (92_eei_decisions D2, log entry 1), no link (D8, log entry 3),
`fixed_start` (D18, log entry 21). The spec gives `IN_PROMPT` no default but "any byte string": DESIGN CHOICE, the empty
one (log entry 4). -/
def Config.spec : Config where
  pcStart := 0x3000#16
  trapLinksR7 := false
  inPrompt := []
  loaderOriginMode := .fixedStart

end Sys2Proof
end

