-- ==== Sys2Proof/Machine/State.lean ====
section
/-!
DEFINITION. The state of the machine as plain data: every element of spec 10_state R13, the two pieces of R30 that
exist inside a step, the console channels (44_trap R113, R115) and the parameters of 00_scope R6; its value after
reset (10_state R33); the reasons a step can stop.
-/

namespace Sys2Proof.Machine

/-- The register_file's eight general registers (10_state R14). -/
structure RegFile where
  r0 : Word
  r1 : Word
  r2 : Word
  r3 : Word
  r4 : Word
  r5 : Word
  r6 : Word
  r7 : Word
  deriving DecidableEq, Repr

/-- The memory_array: the cells that do not hold 0x0000, as (address, word) pairs. The cell is the 16-bit word, since
the array has no byte addresses (20_memory R34; log entry 9). An unlisted address reads as `Memory.unlisted`. -/
structure Memory where
  cells : List (Nat × Word)
  deriving DecidableEq, Repr

/-- What an address no cell lists reads as: 0x0000, the value of every cell at reset (20_memory R35). -/
def Memory.unlisted : Word := 0x0000#16

/-- The memory after reset lists nothing (R35). -/
def Memory.empty : Memory := ⟨[]⟩

/-- The canonical form: addresses strictly rising and 16 bits wide, no cell equal to what an unlisted address reads as. -/
abbrev Memory.wf (m : Memory) : Prop :=
  m.cells.Pairwise (fun c d => c.1 < d.1) ∧ ∀ c ∈ m.cells, c.1 < 65536 ∧ c.2 ≠ Memory.unlisted

/-- The error kinds that reach the core's status (10_state R27, 60_exceptions R131). -/
inductive ErrorKind where
  /-- opcode 8 or 13 was dispatched (40_execution_loop R74) -/
  | invalidOpcode
  /-- the input ended or failed at GETC or IN (44_trap R115) -/
  | ioFailure
  /-- a TRAP vector that is none of the six (44_trap R122) -/
  | invalidTrapVector
  deriving DecidableEq, Repr

/-- What the status records with an error: the kind, the address of the instruction and its word (60_exceptions R132). -/
structure ErrorInfo where
  kind : ErrorKind
  addr : Word
  word : Word
  deriving DecidableEq, Repr

/-- The execution_loop_fsm's `state` (10_state R27). -/
inductive RunState where
  | running
  | halted
  | error (e : ErrorInfo)
  deriving DecidableEq, Repr

/-- Why a step of the machine is not over yet: the input wait of GETC or IN (10_state R30, 44_trap R115), or the scan of
a PUTS or PUTSP that finds no terminator (R123). Between the spec's steps there is none (log entries 6 and 7). -/
inductive Hold where
  | getc | in_ | puts | putsp
  deriving DecidableEq, Repr

/-- The host's answer to one input request (44_trap R115; 92_eei_decisions D16). -/
inductive InAnswer where
  | byte (b : Byte)
  | endOfStream
  | failure
  deriving DecidableEq, Repr

/-- The whole state. -/
structure State where
  /-- R0–R7 (10_state R14) -/
  regs : RegFile
  /-- PC (R20) -/
  pc : Word
  /-- COND (R23) -/
  cond : Word
  /-- `mem` (20_memory R34) -/
  mem : Memory
  /-- `state` (R27) -/
  runState : RunState
  /-- IR, the word the fetch_unit latched (R30) -/
  ir : Word
  /-- the step in progress, if the last one is not over (R30; 44_trap R115, R123) -/
  hold : Option Hold
  /-- the host's answers not yet taken, oldest first (60_exceptions R138; log entry 5) -/
  input : List InAnswer
  /-- every byte output since reset, oldest first (44_trap R113) -/
  output : List Byte
  /-- the parameters of 00_scope R6; no step changes them (log entry 2) -/
  config : Config
  deriving DecidableEq, Repr

/-- The reset state for given parameters (10_state R33, 70_reset_and_hazards R140): registers, COND and memory zero, PC =
`PC_START`, `Running`, no output. IR's value is a DESIGN CHOICE (log entry 8); no step is in progress and no answer has
been given (log entries 5 and 6). -/
def State.resetWith (c : Config) : State where
  regs := ⟨0, 0, 0, 0, 0, 0, 0, 0⟩
  pc := c.pcStart
  cond := 0x0000#16
  mem := Memory.empty
  runState := .running
  ir := 0x0000#16
  hold := none
  input := []
  output := []
  config := c

/-- The machine right after reset, with the spec's default parameters. -/
def State.reset : State := State.resetWith Config.spec

/-- The host's fault outcome. It has NO constructor: nothing raises it. The errors of this machine are values of its
run state, reached by a next state (10_state R27, 60_exceptions R129; log entry 10), every address is valid (20_memory
R36, R37) and no register or cell is ever unwritten (10_state R33). Safe: no run is cut short. -/
inductive Fault where
  deriving DecidableEq, Repr

/-- The host's refusal outcome. -/
inductive Refusal where
  /-- Raised by exec's arm of an instruction that has no meaning yet; safe, since the run stops. No arm raises it now:
  every instruction has its meaning. -/
  | notModelled (mnemonic : String)
  deriving DecidableEq, Repr

/-- The outcome of one step. -/
abbrev Outcome := Host.Outcome State Fault Refusal

end Sys2Proof.Machine
end

