-- ==== Sys2Proof/Machine/Ops.lean ====
section
/-!
DEFINITION. The named operations over memory, registers, console channels and run state that every meaning is written
with (spec 00_scope R10), the fetch (40_execution_loop R70), and raising an error, the one way an instruction ends
abnormally (60_exceptions R129). The machine has no exception entry and so no return from one (R129, R130).
-/

namespace Sys2Proof.Machine

/-- How many words the memory_array has (20_memory R34). -/
def addressCount : Nat := 65536

/-- "low byte" is `w[7:0]` (20_memory R40). -/
def lowByte (w : Word) : Byte := field w 0 8

/-- "high byte" is `w[15:8]` (20_memory R40). -/
def highByte (w : Word) : Byte := field w 8 8

/-- `zext_16` of a byte (00_scope R9). -/
def zextByte (b : Byte) : Word := b.setWidth 16

/-! ### The memory_array -/

/-- The value listed for a key, or what an unlisted address reads as. -/
def lookupCell (k : Nat) : List (Nat × Word) → Word
  | [] => Memory.unlisted
  | c :: cs => if c.1 = k then c.2 else lookupCell k cs

/-- The list without the key. -/
def eraseCell (k : Nat) : List (Nat × Word) → List (Nat × Word)
  | [] => []
  | c :: cs => if c.1 = k then eraseCell k cs else c :: eraseCell k cs

/-- The list with one more cell, before the first greater key. -/
def insertCell (k : Nat) (v : Word) : List (Nat × Word) → List (Nat × Word)
  | [] => [(k, v)]
  | c :: cs => if k < c.1 then (k, v) :: c :: cs else c :: insertCell k v cs

/-- `MemRead(a)`: defined for every address, changes nothing (20_memory R36). -/
def Memory.read (m : Memory) (a : Word) : Word := lookupCell a.toNat m.cells

/-- `MemWrite(a, v)`: defined for every address (R37). Writing what an unlisted address reads as removes the cell. -/
def Memory.write (m : Memory) (a v : Word) : Memory :=
  if v = Memory.unlisted then ⟨eraseCell a.toNat m.cells⟩ else ⟨insertCell a.toNat v (eraseCell a.toNat m.cells)⟩

/-- The memory read port on the state. -/
def State.readMem (s : State) (a : Word) : Word := s.mem.read a

/-- The memory write port on the state; nothing else changes (R37). -/
def State.writeMem (s : State) (a v : Word) : State := { s with mem := s.mem.write a v }

/-! ### The register_file -/

/-- Reading a register by its index; none is hardwired (10_state R14). -/
def RegFile.get (f : RegFile) : Reg → Word
  | .r0 => f.r0
  | .r1 => f.r1
  | .r2 => f.r2
  | .r3 => f.r3
  | .r4 => f.r4
  | .r5 => f.r5
  | .r6 => f.r6
  | .r7 => f.r7

/-- Writing a register by its index (10_state R14). -/
def RegFile.set (f : RegFile) (r : Reg) (v : Word) : RegFile :=
  match r with
  | .r0 => { f with r0 := v }
  | .r1 => { f with r1 := v }
  | .r2 => { f with r2 := v }
  | .r3 => { f with r3 := v }
  | .r4 => { f with r4 := v }
  | .r5 => { f with r5 := v }
  | .r6 => { f with r6 := v }
  | .r7 => { f with r7 := v }

/-- `x[r]` (00_scope R7). -/
def State.reg (s : State) (r : Reg) : Word := s.regs.get r

/-- `x[r] <- v` (00_scope R7). -/
def State.setReg (s : State) (r : Reg) (v : Word) : State := { s with regs := s.regs.set r v }

/-- `pc <- target` (00_scope R7). -/
def State.setPc (s : State) (target : Word) : State := { s with pc := target }

/-- The COND write port; only the condition_code_updater uses it (10_state R25). -/
def State.setCond (s : State) (c : Word) : State := { s with cond := c }

/-! ### The console channels -/

/-- `OutByte` of each byte in turn: it never fails and never blocks (44_trap R113; 92 D17, log entry 18). -/
def State.outBytes (s : State) (bs : List Byte) : State := { s with output := s.output ++ bs }

/-- The answers left after one was taken. -/
def State.setInput (s : State) (as : List InAnswer) : State := { s with input := as }

/-- The step in progress. -/
def State.setHold (s : State) (h : Option Hold) : State := { s with hold := h }

/-! ### The execution_loop_fsm -/

/-- The run state's write port. -/
def State.setRunState (s : State) (r : RunState) : State := { s with runState := r }

/-- `raise Error(kind)`: the step ends with the earlier writes kept, PC at the incremented value and no later write
(40_execution_loop R78; 60_exceptions R129); the status records the instruction's address, PC − 1 mod 65536, and its word
(R132). Nothing is saved, no vector is read, no mode changes. -/
def State.raise (s : State) (k : ErrorKind) : State := s.setRunState (.error ⟨k, s.pc - 1#16, s.ir⟩)

/-- `halt()`: `state <- Halted` (00_scope R10, 44_trap R121). -/
def State.halt (s : State) : State := s.setRunState .halted

/-- The fetch_unit: `IR <- MemRead(PC); PC <- PC + 1` (40_execution_loop R70). -/
def State.fetch (s : State) : State := { s with ir := s.readMem s.pc, pc := s.pc + 1#16 }

/-- The instruction the decoder reads from the latch (40_execution_loop R72). -/
def State.latched (s : State) : Instr := decode s.ir

/-- A step requested in Halted or Error changes nothing (40_execution_loop R79, R81; 92 D14). -/
def stoppedStep (s : State) : Outcome := .next s

end Sys2Proof.Machine
end

