-- ==== Sys2Proof/Machine/Flags.lean ====
section
/-!
DEFINITION. The condition_code_updater and BR's test of COND (spec 41_arith_logic R86, R87; 10_state R23; 43_control_transfer
R105). The encoding of COND is 92_eei_decisions D5 (log entry 14).
-/

namespace Sys2Proof.Machine

/-- P = 0x0001 (10_state R23). -/
def condP : Word := 0x0001#16

/-- Z = 0x0002 (10_state R23). -/
def condZ : Word := 0x0002#16

/-- N = 0x0004 (10_state R23). -/
def condN : Word := 0x0004#16

/-- The value `setcc(v)` gives COND: Z for 0x0000, N when bit 15 is set, else P (R86). -/
def condOf (v : Word) : Word := if v = 0x0000#16 then condZ else if bit v 15 then condN else condP

/-- `setcc(v)` (R86). -/
def State.setCC (s : State) (v : Word) : State := s.setCond (condOf v)

/-- The DR write and, after it, `setcc` of the value written: the end of every flag-writing instruction (R87). -/
def State.writeResult (s : State) (dr : Reg) (v : Word) : State := (s.setReg dr v).setCC v

/-- `mask <- w[11:9]`: (N, Z, P) as bits 2, 1, 0 (43_control_transfer R105). -/
def nzpMask (n z p : Bool) : BitVec 3 := bitField n ++ bitField z ++ bitField p

/-- BR's condition: `(mask & COND[2:0]) != 0` (R105). -/
def branchTaken (n z p : Bool) (cond : Word) : Bool := decide (nzpMask n z p &&& field cond 0 3 ≠ 0#3)

end Sys2Proof.Machine
end

