-- ==== Sys2Proof/Machine/Operands.lean ====
section
/-!
DEFINITION. Sign extension (spec 00_scope R8), the immediate operand and the effective addresses of the addressing
modes (30_encoding R54–R57; 42_data_movement R102), and the alu_arithmetic_logic unit (41_arith_logic R85). Every
address is computed modulo 65536 (20_memory R42).
-/

namespace Sys2Proof.Machine

/-- `sext_n(v)`: if bit n−1 is 1, OR with ones at the positions from n up, else `v` unchanged (00_scope R8). -/
def sext {n : Nat} (v : BitVec n) : Word :=
  if v.getLsbD (n - 1) then v.setWidth 16 ||| (0xFFFF#16 <<< n) else v.setWidth 16

/-- `sext_5(w[4:0])` (30_encoding R54). -/
def immOperand (imm5 : BitVec 5) : Word := sext imm5

/-- `PC + PCoffset9`, PC being the incremented PC (30_encoding R56). -/
def pcRel9 (s : State) (off9 : BitVec 9) : Word := s.pc + sext off9

/-- `PC + PCoffset11` (30_encoding R57). -/
def pcRel11 (s : State) (off11 : BitVec 11) : Word := s.pc + sext off11

/-- `mem[PC + PCoffset9]`, the pointer LDI and STI read (42_data_movement R102). -/
def indirect9 (s : State) (off9 : BitVec 9) : Word := s.readMem (pcRel9 s off9)

/-- `x[BaseR] + offset6` (30_encoding R55). -/
def baseOffset6 (s : State) (baseR : Reg) (off6 : BitVec 6) : Word := s.reg baseR + sext off6

/-- The four functions of the ALU (41_arith_logic R85). -/
inductive AluOp where
  | add | and | not | pass
  deriving DecidableEq, Repr

/-- The 16-bit result; there is no carry, overflow or other status output (R85, R94). NOT and PASS ignore `b`. -/
def alu (op : AluOp) (a b : Word) : Word :=
  match op with
  | .add => a + b
  | .and => a &&& b
  | .not => ~~~a
  | .pass => a

/-- The offset field an assembler writes for `label` in an instruction at `addr`: `label − (addr + 1)`, if it lies in
the field's signed range (30_encoding R69). The difference is taken modulo 65536 and read as signed (log entry 23). -/
def assembleOffset (n : Nat) (label addr : Word) : Option (BitVec n) :=
  let d := label - (addr + 1#16)
  if sext (d.setWidth n) = d then some (d.setWidth n) else none

end Sys2Proof.Machine
end

