-- ==== Sys2Proof/Machine/Arith.lean ====
section
/-!
DEFINITION. The meanings of ADD, AND and NOT (spec 41_arith_logic R88–R92). Each takes the state after the fetch and reads its
sources before it writes (10_state R18).
-/

namespace Sys2Proof.Machine

/-- ADD, register form (R88). -/
def execAddReg (dr sr1 sr2 : Reg) (s : State) : Outcome :=
  .next (s.writeResult dr (alu .add (s.reg sr1) (s.reg sr2)))

/-- ADD, immediate form (R89). -/
def execAddImm (dr sr1 : Reg) (imm5 : BitVec 5) (s : State) : Outcome :=
  .next (s.writeResult dr (alu .add (s.reg sr1) (immOperand imm5)))

/-- AND, register form (R90). -/
def execAndReg (dr sr1 sr2 : Reg) (s : State) : Outcome :=
  .next (s.writeResult dr (alu .and (s.reg sr1) (s.reg sr2)))

/-- AND, immediate form (R91). -/
def execAndImm (dr sr1 : Reg) (imm5 : BitVec 5) (s : State) : Outcome :=
  .next (s.writeResult dr (alu .and (s.reg sr1) (immOperand imm5)))

/-- NOT (R92). -/
def execNot (dr sr : Reg) (s : State) : Outcome :=
  .next (s.writeResult dr (alu .not (s.reg sr) 0x0000#16))

end Sys2Proof.Machine
end

