-- ==== Sys2Proof/Machine/Control.lean ====
section
/-!
DEFINITION. The meanings of BR, JMP, RET, JSR and JSRR (spec 43_control_transfer R105–R109). None writes COND; any 16-bit
target is valid (R110); there is no delay slot (R112).
-/

namespace Sys2Proof.Machine

/-- `x[7] <- PC`: the link, the incremented PC (10_state R17). -/
def State.link (s : State) : State := s.setReg .r7 s.pc

/-- BR (R105). -/
def execBr (n z p : Bool) (off9 : BitVec 9) (s : State) : Outcome :=
  .next (if branchTaken n z p s.cond then s.setPc (pcRel9 s off9) else s)

/-- JMP (R106). -/
def execJmp (baseR : Reg) (s : State) : Outcome := .next (s.setPc (s.reg baseR))

/-- RET: JMP with BaseR = R7 (R107). -/
def execRet (s : State) : Outcome := .next (s.setPc (s.reg .r7))

/-- JSR: the link, then the PC-relative target of the incremented PC (R108). -/
def execJsr (off11 : BitVec 11) (s : State) : Outcome := .next (s.link.setPc (pcRel11 s off11))

/-- JSRR: the link first, then BaseR read AFTER the R7 write (R109). -/
def execJsrr (baseR : Reg) (s : State) : Outcome := .next (s.link.setPc (s.link.reg baseR))

end Sys2Proof.Machine
end

