-- ==== Sys2Proof/Machine/DataMove.lean ====
section
/-!
DEFINITION. The meanings of LD, LDI, LDR, LEA, ST, STI and STR (spec 42_data_movement R95–R101). A load routes its word to DR
through the ALU's PASS (41_arith_logic R85); a store writes one word and leaves COND (R104).
-/

namespace Sys2Proof.Machine

/-- LD (R95). -/
def execLd (dr : Reg) (off9 : BitVec 9) (s : State) : Outcome :=
  .next (s.writeResult dr (alu .pass (s.readMem (pcRel9 s off9)) 0x0000#16))

/-- LDI: the pointer is read first, then the target (R96). -/
def execLdi (dr : Reg) (off9 : BitVec 9) (s : State) : Outcome :=
  .next (s.writeResult dr (alu .pass (s.readMem (indirect9 s off9)) 0x0000#16))

/-- LDR (R97). -/
def execLdr (dr baseR : Reg) (off6 : BitVec 6) (s : State) : Outcome :=
  .next (s.writeResult dr (alu .pass (s.readMem (baseOffset6 s baseR off6)) 0x0000#16))

/-- LEA: the address itself, no memory access; it sets COND (R98). -/
def execLea (dr : Reg) (off9 : BitVec 9) (s : State) : Outcome :=
  .next (s.writeResult dr (alu .pass (pcRel9 s off9) 0x0000#16))

/-- ST (R99). -/
def execSt (sr : Reg) (off9 : BitVec 9) (s : State) : Outcome :=
  .next (s.writeMem (pcRel9 s off9) (s.reg sr))

/-- STI: the pointer is read before the write (R100). -/
def execSti (sr : Reg) (off9 : BitVec 9) (s : State) : Outcome :=
  .next (s.writeMem (indirect9 s off9) (s.reg sr))

/-- STR (R101). -/
def execStr (sr baseR : Reg) (off6 : BitVec 6) (s : State) : Outcome :=
  .next (s.writeMem (baseOffset6 s baseR off6) (s.reg sr))

end Sys2Proof.Machine
end

