-- ==== Sys2Proof/Machine/Reserved.lean ====
section
/-!
DEFINITION. The two reserved opcodes: each raises InvalidOpcode and changes nothing else, whatever its payload (spec
40_execution_loop R74).
-/

namespace Sys2Proof.Machine

/-- Opcode 8 (R74). -/
def execReserved8 (s : State) : Outcome := .next (s.raise .invalidOpcode)

/-- Opcode 13 (R74). -/
def execReserved13 (s : State) : Outcome := .next (s.raise .invalidOpcode)

end Sys2Proof.Machine
end

