-- ==== Sys2Proof/Machine/Trap.lean ====
section
/-!
DEFINITION. TRAP's dispatch and the six console routines (spec 44_trap R113–R124), and how a step that is not over goes on:
the input wait of GETC and IN (R115; log entry 6) and the scan of PUTS and PUTSP (R123; log entry 7).
-/

namespace Sys2Proof.Machine

/-- The R7 link every TRAP makes first when `TRAP_LINKS_R7` is true (R114; log entry 3). -/
def State.trapLink (s : State) : State := if s.config.trapLinksR7 then s.link else s

/-! ### Input -/

/-- `InByte()` and what follows it (R115): with no answer yet the step holds and nothing else changes; `Byte(b)` lets the
routine finish; `EndOfStream` and `Failure` raise IOFailure with no register write. The answer is taken (log entry 5). -/
def State.awaitByte (s : State) (h : Hold) (finish : Byte → State → State) : State :=
  match s.input with
  | [] => s.setHold (some h)
  | .byte b :: rest => finish b ((s.setInput rest).setHold none)
  | .endOfStream :: rest => ((s.setInput rest).setHold none).raise .ioFailure
  | .failure :: rest => ((s.setInput rest).setHold none).raise .ioFailure

/-- GETC once its byte is there: `x[0] <- zext_16(b)`, no echo (R116). -/
def finishGetc (b : Byte) (s : State) : State := s.setReg .r0 (zextByte b)

/-- IN once its byte is there: the echo, then `x[0] <- zext_16(b)` (R119). -/
def finishIn (b : Byte) (s : State) : State := (s.outBytes [b]).setReg .r0 (zextByte b)

/-- GETC's input request. -/
def State.awaitGetc (s : State) : State := s.awaitByte .getc finishGetc

/-- IN's input request, after the prompt. -/
def State.awaitIn (s : State) : State := s.awaitByte .in_ finishIn

/-! ### Output -/

/-- What a scan of memory output, and whether it found its terminator. -/
structure ScanResult where
  bytes : List Byte
  ended : Bool
  deriving DecidableEq, Repr

/-- The loop of PUTS and PUTSP over at most `n` words from `a`, wrapping (R118, R120): it ends at the first word whose low
byte is zero, which outputs nothing; every other word outputs `emit` of it. -/
def scan (emit : Word → List Byte) (m : Memory) : Nat → Word → ScanResult
  | 0, _ => ⟨[], false⟩
  | n + 1, a =>
    if lowByte (m.read a) = 0#8 then ⟨[], true⟩
    else
      let r := scan emit m n (a + 1#16)
      ⟨emit (m.read a) ++ r.bytes, r.ended⟩

/-- PUTS outputs a word's low byte (R118). -/
def putsBytes (w : Word) : List Byte := [lowByte w]

/-- PUTSP outputs a word's low byte, then its high byte if nonzero (R120). -/
def putspBytes (w : Word) : List Byte := lowByte w :: (if highByte w = 0#8 then [] else [highByte w])

/-- One pass over all 65536 words from `x[0]`. If no word ends it the step is not over: the scan is periodic (R123), so
the next model step makes the next pass, without end (log entry 7). No register is written (R118, R120). -/
def State.outputString (s : State) (h : Hold) (emit : Word → List Byte) : State :=
  let r := scan emit s.mem addressCount (s.reg .r0)
  (s.outBytes r.bytes).setHold (if r.ended then none else some h)

/-! ### The routines, after the link -/

/-- GETC (R116). -/
def routineGetc (s : State) : State := s.awaitGetc

/-- OUT: `OutByte(x[0][7:0])` (R117; 92 D10, log entry 17). -/
def routineOut (s : State) : State := s.outBytes [lowByte (s.reg .r0)]

/-- PUTS (R118). -/
def routinePuts (s : State) : State := s.outputString .puts putsBytes

/-- IN: the prompt, then the request (R119). -/
def routineIn (s : State) : State := (s.outBytes s.config.inPrompt).awaitIn

/-- PUTSP (R120). -/
def routinePutsp (s : State) : State := s.outputString .putsp putspBytes

/-- HALT: no output (R121; 92 D13, log entry 17). -/
def routineHalt (s : State) : State := s.halt

/-- The routine a vector selects (R114); an unknown vector raises InvalidTrapVector (R122; log entry 16). -/
def routineOf (v : BitVec 8) (s : State) : State :=
  match TrapRoutine.ofVector v with
  | some .getc => routineGetc s
  | some .out => routineOut s
  | some .puts => routinePuts s
  | some .in_ => routineIn s
  | some .putsp => routinePutsp s
  | some .halt => routineHalt s
  | none => s.raise .invalidTrapVector

/-! ### The meanings -/

/-- TRAP with any vector (R114). -/
def execTrap (v : BitVec 8) (s : State) : Outcome := .next (routineOf v s.trapLink)

/-- TRAP x20 (R116). -/
def execGetc (s : State) : Outcome := .next (routineGetc s.trapLink)

/-- TRAP x21 (R117). -/
def execOut (s : State) : Outcome := .next (routineOut s.trapLink)

/-- TRAP x22 (R118). -/
def execPuts (s : State) : Outcome := .next (routinePuts s.trapLink)

/-- TRAP x23 (R119). -/
def execIn (s : State) : Outcome := .next (routineIn s.trapLink)

/-- TRAP x24 (R120). -/
def execPutsp (s : State) : Outcome := .next (routinePutsp s.trapLink)

/-- TRAP x25 (R121). -/
def execHalt (s : State) : Outcome := .next (routineHalt s.trapLink)

/-- A step that is not over goes on where it held: no fetch, no link, no prompt a second time. -/
def resumeStep (h : Hold) (s : State) : Outcome :=
  match h with
  | .getc => .next s.awaitGetc
  | .in_ => .next s.awaitIn
  | .puts => .next (s.outputString .puts putsBytes)
  | .putsp => .next (s.outputString .putsp putspBytes)

end Sys2Proof.Machine
end

