-- ==== Sys2Proof/Machine/Step.lean ====
section
/-!
DEFINITION. One step of the machine (spec 40_execution_loop R75): fetch, decode, dispatch; and, for the host, the state in
which the next step runs a given word.
-/

namespace Sys2Proof.Machine

/-- One step. In Running with no step in progress: fetch, decode the latch, run the handler (R75). With a step in
progress: go on with it (44_trap R115, R123). In Halted or Error: nothing (R81). -/
def step (s : State) : Host.Outcome State Fault Refusal :=
  match s.runState, s.hold with
  | .running, none => exec s.fetch.latched s.fetch
  | .running, some h => resumeStep h s
  | .halted, _ => stoppedStep s
  | .error _, _ => stoppedStep s

/-- `s` with one word placed where the next step fetches, ready to take that step: in Running, with no step in progress
(log entry 22). -/
def State.withFetchWord (s : State) (nbits w : Nat) : State :=
  ((s.writeMem s.pc (tableWord nbits w)).setRunState .running).setHold none

end Sys2Proof.Machine
end

