-- ==== Sys2Proof/Machine/Loader.lean ====
section
/-!
DEFINITION. The loader's side of the interface (spec 70_reset_and_hazards R148–R151): bytes to words, the parity and fit
checks, the origin option, the block written before the first step, and the boot order (R143).
-/

namespace Sys2Proof.Machine

/-- The error the loader reports; it never reaches the core (60_exceptions R131). -/
inductive LoaderError where
  /-- the byte length is odd, or the image does not fit (R149, R150) -/
  | malformedImage
  deriving DecidableEq, Repr

/-- Big-endian byte pairs to words; `none` for an odd length (R150). -/
def imageWords : List Byte → Option (List Word)
  | [] => some []
  | [_] => none
  | hi :: lo :: rest => (imageWords rest).map (wordOfBytes hi lo :: ·)

/-- `load(words, base)`: word `i` goes to `mem[base + i]`, and nothing else changes (10_state R31, R149). -/
def State.load (s : State) (base : Word) : List Word → State
  | [] => s
  | w :: ws => (s.writeMem base w).load (base + 1#16) ws

/-- A block of `k` words fits above `base` (R149: refused with k > 65536 − base). -/
def fitsAt (base : Word) (k : Nat) : Bool := decide (k ≤ addressCount - base.toNat)

/-- The block, checked. -/
def State.loadChecked (s : State) (base : Word) (ws : List Word) : Except LoaderError State :=
  if fitsAt base ws.length then .ok (s.load base ws) else .error .malformedImage

/-- The image as words, placed as `LOADER_ORIGIN_MODE` says (R151): at `PC_START`, or, under `origin_word`, at the address
the first word gives. An image with no first word is malformed there, and the rest must fit above that address (log entry 20). -/
def State.loadWords (s : State) (ws : List Word) : Except LoaderError State :=
  match s.config.loaderOriginMode, ws with
  | .fixedStart, ws => s.loadChecked s.config.pcStart ws
  | .originWord, origin :: rest => s.loadChecked origin rest
  | .originWord, [] => .error .malformedImage

/-- The image's bytes, loaded (R149, R150). -/
def State.loadImage (s : State) (image : List Byte) : Except LoaderError State :=
  match imageWords image with
  | some ws => s.loadWords ws
  | none => .error .malformedImage

/-- Reset, then the image load; the first step comes after (R143). -/
def boot (c : Config) (image : List Byte) : Except LoaderError State := (State.resetWith c).loadImage image

end Sys2Proof.Machine
end

