-- ==== Sys2Proof/Machine/HostPort.lean ====
section
/-!
DEFINITION. The other transactions of the external interface (spec 10_state R31): `status` and its codes (60_exceptions
R131), `in_req` and `in_resp`, and `run` under fuel (40_execution_loop R77, R80).
-/

namespace Sys2Proof.Machine

/-- `status` reports the run state (40_execution_loop R84). -/
def State.status (s : State) : RunState := s.runState

/-- 0 = Running, 1 = Halted, 2 = Error (10_state R31; 92 D15, log entry 19). -/
def RunState.code : RunState → Nat
  | .running => 0
  | .halted => 1
  | .error _ => 2

/-- The codes of the kinds (60_exceptions R131; 92 D15, log entry 19). -/
def ErrorKind.code : ErrorKind → Nat
  | .invalidOpcode => 1
  | .ioFailure => 2
  | .invalidTrapVector => 3

/-- MalformedImage has code 4 (60_exceptions R131). -/
def LoaderError.code : LoaderError → Nat
  | .malformedImage => 4

/-- `in_req`: the core waits for an input byte (10_state R30, R31). -/
def State.inReq (s : State) : Bool :=
  match s.hold with
  | some .getc => s.input.isEmpty
  | some .in_ => s.input.isEmpty
  | some .puts => false
  | some .putsp => false
  | none => false

/-- `in_resp`: the host's answer joins the answers not yet taken (10_state R31; log entry 5). -/
def State.answer (s : State) (a : InAnswer) : State := s.setInput (s.input ++ [a])

/-- `run()`: steps while Running, at most `fuel` of them, and the status then (R80). `none` is fuel spent, no outcome
of the machine (R77). -/
def run : Nat → State → Option RunState
  | fuel, s =>
    match s.runState with
    | .halted => some s.status
    | .error _ => some s.status
    | .running =>
      match fuel with
      | 0 => none
      | fuel + 1 =>
        match step s with
        | .next t => run fuel t
        | .fault r => nomatch r
        | .refused _ => none

end Sys2Proof.Machine
end

