-- ==== Sys2Proof/Safety.lean ====
section
/-!
DEFINITION. The terms in which statements about the machine are made: frames (what an instruction leaves unchanged), the
readings of COND and of a string in memory that are independent of the machine's own functions, which instructions may
write what, the end of a run (spec 40_execution_loop R82) and the invariant every step keeps.
-/

namespace Sys2Proof.Machine

/-! ### Frames -/

/-- Every register but the listed ones is unchanged. -/
def RegsSameBut (rs : List Reg) (s t : State) : Prop := ∀ r, r ∉ rs → t.reg r = s.reg r

/-- Every word of memory is unchanged. -/
def MemSame (s t : State) : Prop := ∀ a, t.readMem a = s.readMem a

/-- Every word of memory but the one at `a` is unchanged. -/
def MemSameBut (a : Word) (s t : State) : Prop := ∀ b, b ≠ a → t.readMem b = s.readMem b

/-- Neither console channel is touched. -/
def ConsoleSame (s t : State) : Prop := t.input = s.input ∧ t.output = s.output

/-- The run state, the step in progress, the latch and the parameters are unchanged. -/
def LoopSame (s t : State) : Prop :=
  t.runState = s.runState ∧ t.hold = s.hold ∧ t.ir = s.ir ∧ t.config = s.config

/-- The frame of an instruction that writes `dr` and COND alone. -/
def OnlyRegAndCond (dr : Reg) (s t : State) : Prop :=
  RegsSameBut [dr] s t ∧ MemSame s t ∧ ConsoleSame s t ∧ LoopSame s t ∧ t.pc = s.pc

/-- The frame of an instruction that writes the memory word at `a` alone. -/
def OnlyMemWord (a : Word) (s t : State) : Prop :=
  RegsSameBut [] s t ∧ MemSameBut a s t ∧ ConsoleSame s t ∧ LoopSame s t ∧ t.cond = s.cond ∧ t.pc = s.pc

/-- The frame of an instruction that writes PC and the listed registers alone. -/
def OnlyPcAndRegs (rs : List Reg) (s t : State) : Prop :=
  RegsSameBut rs s t ∧ MemSame s t ∧ ConsoleSame s t ∧ LoopSame s t ∧ t.cond = s.cond

/-- The frame of an instruction that writes the run state alone. -/
def OnlyRunState (s t : State) : Prop :=
  RegsSameBut [] s t ∧ MemSame s t ∧ ConsoleSame s t ∧ t.cond = s.cond ∧ t.pc = s.pc ∧ t.ir = s.ir ∧ t.hold = s.hold ∧
    t.config = s.config

/-- The part of the frame all TRAPs share: memory, COND, PC, the latch and the parameters are unchanged, and R7 holds the
incremented PC when `TRAP_LINKS_R7` is true and its old value when not (44_trap R114). -/
def TrapFrame (s t : State) : Prop :=
  MemSame s t ∧ t.cond = s.cond ∧ t.pc = s.pc ∧ t.ir = s.ir ∧ t.config = s.config ∧
    t.reg .r7 = (if s.config.trapLinksR7 then s.pc else s.reg .r7)

/-! ### Readings -/

/-- COND for a value `v`, by the value's range (41_arith_logic R86; 95_test_vectors E2). -/
def CondSays (c v : Word) : Prop :=
  (v.toNat = 0 → c = 0x0002#16) ∧ (1 ≤ v.toNat ∧ v.toNat ≤ 0x7FFF → c = 0x0001#16) ∧
    (0x8000 ≤ v.toNat → c = 0x0004#16)

/-- The word `j` places after `a`, wrapping. -/
def wordAt (s : State) (a : Word) (j : Nat) : Word := s.readMem (a + BitVec.ofNat 16 j)

/-- The string at `a` is `k` words long: word `k` is the first whose low byte is zero (44_trap R118, R120). -/
def StringLength (s : State) (a : Word) (k : Nat) : Prop :=
  k < 65536 ∧ (wordAt s a k).extractLsb' 0 8 = 0#8 ∧ ∀ j, j < k → (wordAt s a j).extractLsb' 0 8 ≠ 0#8

/-- No word of memory has a zero low byte (44_trap R123). -/
def Unterminated (s : State) : Prop := ∀ a, (s.readMem a).extractLsb' 0 8 ≠ 0#8

/-- The one or two bytes of a packed word: the low byte, then the high byte unless it is zero (44_trap R120). -/
def packedBytes (w : Word) : List Byte :=
  if w.toNat < 256 then [w.extractLsb' 0 8] else [w.extractLsb' 0 8, w.extractLsb' 8 8]

/-- Every word that satisfies the mask and match of a row decodes to the row's instruction with the word's fields. -/
def RowDecodes (mask matchBits : Word) (i : Word → Instr) : Prop := ∀ w : Word, w &&& mask = matchBits → decode w = i w

/-- The register the field `w[lo+2:lo]` names. -/
def regField (w : Word) (lo : Nat) : Reg := Reg.ofBits (w.extractLsb' lo 3)

/-! ### Who may write what -/

/-- The registers TRAP's link writes (44_trap R114). -/
def linkRegs (c : Config) : List Reg := if c.trapLinksR7 then [.r7] else []

/-- The registers an instruction may write: the table of 10_state R15. -/
def writtenRegs (c : Config) : Instr → List Reg
  | .addReg dr .. | .addImm dr .. | .andReg dr .. | .andImm dr .. | .not dr .. => [dr]
  | .ld dr _ | .ldi dr _ | .ldr dr _ _ | .lea dr _ => [dr]
  | .jsr _ | .jsrr .. => [.r7]
  | .getc _ | .in_ _ => .r0 :: linkRegs c
  | .trap _ v =>
    match TrapRoutine.ofVector v with
    | some .getc => .r0 :: linkRegs c
    | some .in_ => .r0 :: linkRegs c
    | some .out => linkRegs c
    | some .puts => linkRegs c
    | some .putsp => linkRegs c
    | some .halt => linkRegs c
    | none => linkRegs c
  | .out _ | .puts _ | .putsp _ | .halt _ => linkRegs c
  | .br .. | .jmp .. | .ret .. | .st .. | .sti .. | .str .. | .reserved8 _ | .reserved13 _ => []

/-- The destination of the flag-writing instructions, the seven of 10_state R25. -/
def flagWriter : Instr → Option Reg
  | .addReg dr .. | .addImm dr .. | .andReg dr .. | .andImm dr .. | .not dr .. => some dr
  | .ld dr _ | .ldi dr _ | .ldr dr _ _ | .lea dr _ => some dr
  | .br .. | .jmp .. | .ret .. | .jsr .. | .jsrr .. | .st .. | .sti .. | .str .. | .reserved8 _ | .reserved13 _
  | .trap .. | .getc _ | .out _ | .puts _ | .in_ _ | .putsp _ | .halt _ => none

/-- The address an instruction stores to (42_data_movement R99–R101); `none` for the instructions that store nothing. -/
def storeAddress (s : State) : Instr → Option Word
  | .st _ off9 => some (pcRel9 s off9)
  | .sti _ off9 => some (indirect9 s off9)
  | .str _ baseR off6 => some (baseOffset6 s baseR off6)
  | .br .. | .addReg .. | .addImm .. | .ld .. | .jsr .. | .jsrr .. | .andReg .. | .andImm .. | .ldr .. | .reserved8 ..
  | .not .. | .ldi .. | .jmp .. | .ret .. | .reserved13 .. | .lea .. | .trap .. | .getc .. | .out .. | .puts .. | .in_ ..
  | .putsp .. | .halt .. => none

/-- The instructions that may write PC beyond the fetch increment (10_state R20). -/
def writesPc : Instr → Bool
  | .br .. | .jmp .. | .ret .. | .jsr .. | .jsrr .. => true
  | .addReg .. | .addImm .. | .ld .. | .st .. | .andReg .. | .andImm .. | .ldr .. | .str .. | .reserved8 .. | .not ..
  | .ldi .. | .sti .. | .reserved13 .. | .lea .. | .trap .. | .getc .. | .out .. | .puts .. | .in_ .. | .putsp ..
  | .halt .. => false

/-- BR, the one instruction that reads COND (10_state R26). -/
def isBr : Instr → Bool
  | .br .. => true
  | .addReg .. | .addImm .. | .ld .. | .st .. | .jsr .. | .jsrr .. | .andReg .. | .andImm .. | .ldr .. | .str ..
  | .reserved8 .. | .not .. | .ldi .. | .sti .. | .jmp .. | .ret .. | .reserved13 .. | .lea .. | .trap .. | .getc ..
  | .out .. | .puts .. | .in_ .. | .putsp .. | .halt .. => false

/-- The instructions of opcode 15, the only ones with console transactions (40_execution_loop R83). -/
def isTrap (i : Instr) : Bool := decide (i.opcode = .trap)

/-- The don't-care bits of an instruction's word (30_encoding R62). -/
def dontCareMask : Instr → Word
  | .addReg .. | .andReg .. => 0x0018#16
  | .not .. => 0x003F#16
  | .jmp .. => 0x0E3F#16
  | .ret .. => 0x0E3F#16
  | .jsrr .. => 0x063F#16
  | .trap .. | .getc .. | .out .. | .puts .. | .in_ .. | .putsp .. | .halt .. => 0x0F00#16
  | .br .. | .addImm .. | .andImm .. | .ld .. | .st .. | .jsr .. | .ldr .. | .str .. | .reserved8 .. | .ldi .. | .sti ..
  | .reserved13 .. | .lea .. => 0x0000#16

/-! ### Runs and the invariant -/

/-- The machine is in Running with no step in progress: the next step fetches (40_execution_loop R75). -/
abbrev Ready (s : State) : Prop := s.runState = .running ∧ s.hold = none

/-- The run has ended (40_execution_loop R82). -/
abbrev Ended (s : State) : Prop := s.runState ≠ .running

/-- `n` steps in a row. -/
def stepN : Nat → State → Outcome
  | 0, s => .next s
  | n + 1, s =>
    match step s with
    | .next t => stepN n t
    | .fault r => .fault r
    | .refused r => .refused r

/-- The routine a latched word selects. -/
def routineOfWord (w : Word) : Option TrapRoutine :=
  match Opcode.ofBits (w.extractLsb' 12 4) with
  | .trap => TrapRoutine.ofVector (w.extractLsb' 0 8)
  | _ => none

/-- The routine a hold belongs to. -/
def Hold.routine : Hold → TrapRoutine
  | .getc => .getc
  | .in_ => .in_
  | .puts => .puts
  | .putsp => .putsp

/-- The word that raised an error is one that can raise its kind (60_exceptions R131). -/
def kindFits (k : ErrorKind) (w : Word) : Bool :=
  match k with
  | .invalidOpcode => decide (w.extractLsb' 12 4 = 8#4) || decide (w.extractLsb' 12 4 = 13#4)
  | .ioFailure => decide (routineOfWord w = some .getc) || decide (routineOfWord w = some .in_)
  | .invalidTrapVector => decide (w.extractLsb' 12 4 = 15#4) && decide (routineOfWord w = none)

/-- COND holds no flag or exactly one (10_state R13, R23, R24). -/
def condLegal (c : Word) : Bool :=
  decide (c = 0x0000#16) || decide (c = 0x0001#16) || decide (c = 0x0002#16) || decide (c = 0x0004#16)

/-- A step is in progress only in Running, and only of the routine the latch selects. -/
def holdLegal (s : State) : Bool :=
  match s.hold with
  | none => true
  | some h => decide (s.runState = .running) && decide (routineOfWord s.ir = some h.routine)

/-- Halted was entered by HALT (40_execution_loop R76), and Error by an instruction that raises its kind, whose address and
word the status records (60_exceptions R131, R132). -/
def endLegal (s : State) : Bool :=
  match s.runState with
  | .running => true
  | .halted => decide (routineOfWord s.ir = some .halt)
  | .error e => decide (e.addr = s.pc - 1#16) && decide (e.word = s.ir) && kindFits e.kind s.ir

/-- The invariant: canonical memory, a legal COND, a legal step in progress, a legal end. -/
abbrev Inv (s : State) : Prop := s.mem.wf ∧ condLegal s.cond ∧ holdLegal s ∧ endLegal s

end Sys2Proof.Machine
end

