-- ==== Sys2Proof/Laws/Decode.lean ====
section
/-!
SUPPORT. The small lemmas of the decoder's and encoder's pieces: register indices, opcode numbers, trap vectors, sign
extension. They say nothing of decode and encode as wholes.
-/

namespace Sys2Proof

@[simp] theorem Reg.ofBits_toBits (r : Reg) : Reg.ofBits r.toBits = r := by cases r <;> rfl

@[simp] theorem Reg.toBits_ofBits (b : BitVec 3) : (Reg.ofBits b).toBits = b := by
  revert b; decide

theorem Reg.ofBits_eq_r7 (b : BitVec 3) : Reg.ofBits b = .r7 ↔ b = 0b111#3 := by
  revert b; decide

@[simp] theorem TrapRoutine.ofVector_vector (t : TrapRoutine) : TrapRoutine.ofVector t.vector = some t := by
  cases t <;> rfl

theorem TrapRoutine.vector_of_ofVector {v : BitVec 8} {t : TrapRoutine} (h : TrapRoutine.ofVector v = some t) : v = t.vector := by
  unfold TrapRoutine.ofVector at h
  repeat' split at h
  all_goals first
    | (cases h; assumption)
    | cases h

/-- The named vectors are 0x20 to 0x25 (30_encoding R64). -/
theorem TrapRoutine.ofVector_none_iff (v : BitVec 8) : TrapRoutine.ofVector v = none ↔ namedVector v = false := by
  revert v; decide

/-- Bit `i` of a word is `w[i]`. -/
theorem bit_eq (w : Word) (i : Nat) : bit w i = w.getLsbD i := rfl

theorem field_eq (w : Word) (lo len : Nat) : field w lo len = w.extractLsb' lo len := rfl

/-- Bit `i` of a placed field. -/
theorem getLsbD_place {len : Nat} (lo : Nat) (x : BitVec len) (i : Nat) :
    (place lo x).getLsbD i = (decide (i < 16) && decide (lo ≤ i) && x.getLsbD (i - lo)) := by
  unfold place
  rw [BitVec.getLsbD_shiftLeft, BitVec.getLsbD_setWidth]
  by_cases h1 : i < 16 <;> by_cases h2 : lo ≤ i
  · simp [h1, h2, show ¬ i < lo by omega, show i - lo < 16 by omega]
  · simp [h2, show i < lo by omega]
  · simp [h1]
  · simp [h1]

theorem getElem_place {len : Nat} (lo : Nat) (x : BitVec len) (i : Nat) (h : i < 16) :
    (place lo x)[i] = (decide (lo ≤ i) && x.getLsbD (i - lo)) := by
  rw [← BitVec.getLsbD_eq_getElem, getLsbD_place]; simp [h]

/-- Bit `i` of a field. -/
theorem getLsbD_field (w : Word) (lo len i : Nat) : (field w lo len).getLsbD i = (decide (i < len) && w.getLsbD (lo + i)) :=
  BitVec.getLsbD_extractLsb' ..

theorem getElem_field (w : Word) (lo len i : Nat) (h : i < len) : (field w lo len)[i] = w.getLsbD (lo + i) := by
  rw [← BitVec.getLsbD_eq_getElem, getLsbD_field]; simp [h]

theorem getElem_bitField (b : Bool) (h : 0 < 1) : (bitField b)[0] = b := by revert b h; decide

/-- A field is known by its bits. -/
theorem field_ext {w : Word} {lo len : Nat} {x : BitVec len} (h : ∀ i, i < len → w.getLsbD (lo + i) = x.getLsbD i) :
    field w lo len = x := by
  apply BitVec.eq_of_getLsbD_eq
  intro i hi
  rw [getLsbD_field]; simp [hi, h i hi]

theorem field_or (a b : Word) (lo len : Nat) : field (a ||| b) lo len = field a lo len ||| field b lo len := by
  apply field_ext; intro i hi
  rw [BitVec.getLsbD_or, BitVec.getLsbD_or, getLsbD_field, getLsbD_field]; simp [hi]

/-- Reading a field where it was placed. -/
theorem field_place_same {len : Nat} (lo : Nat) (x : BitVec len) (h : lo + len ≤ 16) : field (place lo x) lo len = x := by
  apply field_ext; intro i hi
  rw [getLsbD_place]; simp; omega

/-- Reading above a placed field. -/
theorem field_place_above {n : Nat} (l : Nat) (x : BitVec n) (lo len : Nat) (h : l + n ≤ lo) : field (place l x) lo len = 0#len := by
  apply field_ext; intro i hi
  rw [getLsbD_place]; simp; intro _ _; apply BitVec.getLsbD_of_ge; omega

/-- Reading below a placed field. -/
theorem field_place_below {n : Nat} (l : Nat) (x : BitVec n) (lo len : Nat) (h : lo + len ≤ l) : field (place l x) lo len = 0#len := by
  apply field_ext; intro i hi
  rw [getLsbD_place]; simp; omega

theorem bit_or (a b : Word) (i : Nat) : bit (a ||| b) i = (bit a i || bit b i) := by simp [bit]

theorem bit_place {n : Nat} (l i : Nat) (x : BitVec n) :
    bit (place l x) i = (decide (i < 16) && decide (l ≤ i) && x.getLsbD (i - l)) := getLsbD_place ..

/-- Two bytes as a number, the high byte first (20_memory R40). -/
theorem wordOfBytes_toNat (hi lo : Byte) : (wordOfBytes hi lo).toNat = 256 * hi.toNat + lo.toNat := by
  have h : wordOfBytes hi lo = place 8 hi + place 0 lo := by
    unfold wordOfBytes
    rw [← BitVec.add_eq_or_of_and_eq_zero]
    apply BitVec.eq_of_getLsbD_eq; intro i _
    simp only [BitVec.getLsbD_and, getLsbD_place, BitVec.getLsbD_zero]
    by_cases h8 : 8 ≤ i
    · simp [BitVec.getLsbD_of_ge lo i h8]
    · simp [h8]
  rw [h]
  simp [place, BitVec.toNat_add, Nat.shiftLeft_eq]; omega

namespace Machine

/-- `sext` is sign extension to 16 bits (00_scope R8). -/
theorem sext_eq_signExtend {n : Nat} (hn : 1 ≤ n) (v : BitVec n) : sext v = v.signExtend 16 := by
  have hm : v.msb = v.getLsbD (n - 1) := by rw [BitVec.msb_eq_getLsbD_last]
  apply BitVec.eq_of_getLsbD_eq
  intro i hi
  unfold sext
  rw [BitVec.getLsbD_signExtend, hm]
  by_cases hs : v.getLsbD (n - 1) = true
  · by_cases hin : i < n
    · simp [hs, hi, hin]
    · have : (65535#16).getLsbD (i - n) = true := by
        have : i - n < 16 := by omega
        interval_cases (i - n) <;> rfl
      simp [hs, hi, hin, this]
  · have hs' : v.getLsbD (n - 1) = false := by simpa using hs
    by_cases hin : i < n
    · simp [hs', hi, hin]
    · simp [hs', hi, hin, BitVec.getLsbD_of_ge v i (by omega)]

end Machine

end Sys2Proof
end

