-- ==== Sys2Proof/Laws/PerInstr.lean ====
section
/-!
SUPPORT. The per-instruction family RowBits: the word of every instruction has the fixed bits of its row in
spec/opcode_table.json.
-/

namespace Sys2Proof.Laws.RowBits

/-- The encoding carries the row's match under the row's mask. -/
def Statement (i : Instr) : Prop := encode i &&& i.rowMask = i.rowMatch

/-- A word's masked bits are checked one by one. -/
theorem of_bits {i : Instr} (h : ∀ k, k < 16 → (encode i &&& i.rowMask).getLsbD k = i.rowMatch.getLsbD k) : Statement i :=
  BitVec.eq_of_getLsbD_eq h

theorem br (n z p : Bool) (off9 : BitVec 9) : Statement (.br n z p off9) := of_bits fun k hk => by
  interval_cases k <;> simp [encode, Instr.rowMask, Instr.rowMatch, getElem_place]

theorem addReg (dr sr1 : Reg) (dc : BitVec 2) (sr2 : Reg) : Statement (.addReg dr sr1 dc sr2) := of_bits fun k hk => by
  interval_cases k <;> simp [encode, Instr.rowMask, Instr.rowMatch, getElem_place]

theorem addImm (dr sr1 : Reg) (imm5 : BitVec 5) : Statement (.addImm dr sr1 imm5) := of_bits fun k hk => by
  interval_cases k <;> simp [encode, Instr.rowMask, Instr.rowMatch, getElem_place]

theorem ld (dr : Reg) (off9 : BitVec 9) : Statement (.ld dr off9) := of_bits fun k hk => by
  interval_cases k <;> simp [encode, Instr.rowMask, Instr.rowMatch, getElem_place]

theorem st (sr : Reg) (off9 : BitVec 9) : Statement (.st sr off9) := of_bits fun k hk => by
  interval_cases k <;> simp [encode, Instr.rowMask, Instr.rowMatch, getElem_place]

theorem jsr (off11 : BitVec 11) : Statement (.jsr off11) := of_bits fun k hk => by
  interval_cases k <;> simp [encode, Instr.rowMask, Instr.rowMatch, getElem_place]

theorem jsrr (dcHi : BitVec 2) (baseR : Reg) (dcLo : BitVec 6) : Statement (.jsrr dcHi baseR dcLo) := of_bits fun k hk => by
  interval_cases k <;> simp [encode, Instr.rowMask, Instr.rowMatch, getElem_place]

theorem andReg (dr sr1 : Reg) (dc : BitVec 2) (sr2 : Reg) : Statement (.andReg dr sr1 dc sr2) := of_bits fun k hk => by
  interval_cases k <;> simp [encode, Instr.rowMask, Instr.rowMatch, getElem_place]

theorem andImm (dr sr1 : Reg) (imm5 : BitVec 5) : Statement (.andImm dr sr1 imm5) := of_bits fun k hk => by
  interval_cases k <;> simp [encode, Instr.rowMask, Instr.rowMatch, getElem_place]

theorem ldr (dr baseR : Reg) (off6 : BitVec 6) : Statement (.ldr dr baseR off6) := of_bits fun k hk => by
  interval_cases k <;> simp [encode, Instr.rowMask, Instr.rowMatch, getElem_place]

theorem str (sr baseR : Reg) (off6 : BitVec 6) : Statement (.str sr baseR off6) := of_bits fun k hk => by
  interval_cases k <;> simp [encode, Instr.rowMask, Instr.rowMatch, getElem_place]

theorem reserved8 (payload : BitVec 12) : Statement (.reserved8 payload) := of_bits fun k hk => by
  interval_cases k <;> simp [encode, Instr.rowMask, Instr.rowMatch, getElem_place]

theorem not (dr sr : Reg) (dc : BitVec 6) : Statement (.not dr sr dc) := of_bits fun k hk => by
  interval_cases k <;> simp [encode, Instr.rowMask, Instr.rowMatch, getElem_place]

theorem ldi (dr : Reg) (off9 : BitVec 9) : Statement (.ldi dr off9) := of_bits fun k hk => by
  interval_cases k <;> simp [encode, Instr.rowMask, Instr.rowMatch, getElem_place]

theorem sti (sr : Reg) (off9 : BitVec 9) : Statement (.sti sr off9) := of_bits fun k hk => by
  interval_cases k <;> simp [encode, Instr.rowMask, Instr.rowMatch, getElem_place]

theorem jmp (dcHi : BitVec 3) (baseR : Reg) (dcLo : BitVec 6) : Statement (.jmp dcHi baseR dcLo) := of_bits fun k hk => by
  interval_cases k <;> simp [encode, Instr.rowMask, Instr.rowMatch, getElem_place]

theorem ret (dcHi : BitVec 3) (dcLo : BitVec 6) : Statement (.ret dcHi dcLo) := of_bits fun k hk => by
  interval_cases k <;> simp [encode, Instr.rowMask, Instr.rowMatch, getElem_place]

theorem reserved13 (payload : BitVec 12) : Statement (.reserved13 payload) := of_bits fun k hk => by
  interval_cases k <;> simp [encode, Instr.rowMask, Instr.rowMatch, getElem_place]

theorem lea (dr : Reg) (off9 : BitVec 9) : Statement (.lea dr off9) := of_bits fun k hk => by
  interval_cases k <;> simp [encode, Instr.rowMask, Instr.rowMatch, getElem_place]

theorem trap (dc : BitVec 4) (v : BitVec 8) : Statement (.trap dc v) := of_bits fun k hk => by
  interval_cases k <;> simp [encode, encodeTrap, Instr.rowMask, Instr.rowMatch, getElem_place]

theorem getc (dc : BitVec 4) : Statement (.getc dc) := of_bits fun k hk => by
  interval_cases k <;> simp [encode, encodeTrap, TrapRoutine.vector, Instr.rowMask, Instr.rowMatch, getElem_place]

theorem out (dc : BitVec 4) : Statement (.out dc) := of_bits fun k hk => by
  interval_cases k <;> simp [encode, encodeTrap, TrapRoutine.vector, Instr.rowMask, Instr.rowMatch, getElem_place]

theorem puts (dc : BitVec 4) : Statement (.puts dc) := of_bits fun k hk => by
  interval_cases k <;> simp [encode, encodeTrap, TrapRoutine.vector, Instr.rowMask, Instr.rowMatch, getElem_place]

theorem in_ (dc : BitVec 4) : Statement (.in_ dc) := of_bits fun k hk => by
  interval_cases k <;> simp [encode, encodeTrap, TrapRoutine.vector, Instr.rowMask, Instr.rowMatch, getElem_place]

theorem putsp (dc : BitVec 4) : Statement (.putsp dc) := of_bits fun k hk => by
  interval_cases k <;> simp [encode, encodeTrap, TrapRoutine.vector, Instr.rowMask, Instr.rowMatch, getElem_place]

theorem halt (dc : BitVec 4) : Statement (.halt dc) := of_bits fun k hk => by
  interval_cases k <;> simp [encode, encodeTrap, TrapRoutine.vector, Instr.rowMask, Instr.rowMatch, getElem_place]

end Sys2Proof.Laws.RowBits
end

