-- ==== Sys2Proof/Certificates/Slice0/Obligations.lean ====
section
/-!
DEFINITION. The statements for the provers. Each docstring names the rules of spec/ a statement formalises. Opcode numbers
(92_eei_decisions D3, log entry 12), trap vectors (D4, log entry 13), COND's bits (D5, log entry 14) and the codes and record of
an error (D15, log entry 19) are the spec's own decisions: a statement that rests on one says so and is 'derived'.
-/

open Sys2Proof Sys2Proof.Machine

/-! ### Encoding -/

/-- Decode and encode agree on every well-formed instruction, every operand at every value (30_encoding R52, R66). Which
of two terms a word decodes to (RET or JMP, a routine or TRAP) is the model's choice, log entry 11. -/
def Obligations.EncodedInstructionsDecodeBack : Prop := ∀ i : Instr, i.wf = true → decode (encode i) = i

/-- "Re-encoding a decoded form gives back the original word": no bit is lost (30_encoding R66). -/
def Obligations.ReencodingRecoversEveryWord : Prop := ∀ w : Word, encode (decode w) = w

/-- The decoder gives every one of the 65536 words a well-formed instruction that has the fixed bits of its row
(30_encoding R65; the rows of opcode_table.json rest on 92 D3 and D4, log entries 12 and 13). -/
def Obligations.EveryWordDecodesIntoItsRow : Prop :=
  ∀ w : Word, (decode w).wf = true ∧ w &&& (decode w).rowMask = (decode w).rowMatch

/-- The opcode is `word >> 12`, and each of its sixteen values is a variant of its own (30_encoding R51). -/
def Obligations.OpcodeIsTheTopFourBits : Prop :=
  (∀ v w : Word, (decode v).opcode = (decode w).opcode ↔ v.toNat / 4096 = w.toNat / 4096) ∧
    (∀ w : Word, (decode w).opcode = .reserved8 ↔ w.toNat / 4096 = 8) ∧
    (∀ w : Word, (decode w).opcode = .reserved13 ↔ w.toNat / 4096 = 13)

/-- Words written out in 95_test_vectors (E1, E3, E9, V-rows) decode to the instructions named beside them; the numbers
rest on 92 D3 and D4, log entries 12 and 13. -/
def Obligations.SpecWordsDecodeAsNamed : Prop :=
  decode 0x12BF#16 = .addImm .r1 .r2 0b11111#5 ∧ decode 0x129B#16 = .addReg .r1 .r2 0b11#2 .r3 ∧
    decode 0xA201#16 = .ldi .r1 1#9 ∧ decode 0x0E03#16 = .br true true true 3#9 ∧
    decode 0x9280#16 = .not .r1 .r2 0#6 ∧ decode 0xCEBF#16 = .jmp 0b111#3 .r2 0b111111#6 ∧
    decode 0x75BF#16 = .str .r2 .r6 0b111111#6 ∧ decode 0xD123#16 = .reserved13 0x123#12 ∧
    decode 0xFF25#16 = .halt 0b1111#4 ∧ decode 0xC1C0#16 = .ret 0#3 0#6 ∧ decode 0x4C00#16 = .jsr 0b10000000000#11

/-- Two words that differ only in don't-care bits of one of them run alike from every state (30_encoding R62, R63; that the
bits are ignored is 92 D6, log entry 15). -/
def Obligations.DontCareBitsAreIgnored : Prop :=
  ∀ (v w : Word) (s : State), (v ^^^ w) &&& ~~~(dontCareMask (decode v)) = 0#16 → exec (decode w) s = exec (decode v) s

/-- `sext_n(v)` is the 16-bit two's-complement form of the signed value of `v`; bit n−1 = 1 gives ones at the positions
from n up, 0 leaves `v` unchanged, and width 16 is the identity (00_scope R8). -/
def Obligations.SignExtensionKeepsTheSignedValue : Prop :=
  (∀ (n : Nat) (v : BitVec n), 1 ≤ n → n ≤ 16 →
    (sext v).toInt = v.toInt ∧ (v.getLsbD (n - 1) = false → (sext v).toNat = v.toNat) ∧
      (v.getLsbD (n - 1) = true → ∀ k, n ≤ k → k < 16 → (sext v).getLsbD k = true) ∧
      ∀ k, k < n → (sext v).getLsbD k = v.getLsbD k) ∧
    ∀ v : Word, sext v = v

/-- Every effective address is base plus signed offset modulo 65536 (20_memory R42; 30_encoding R55, R56, R57). -/
def Obligations.EffectiveAddressesWrap : Prop :=
  ∀ (s : State) (off9 : BitVec 9) (off11 : BitVec 11) (b : Reg) (off6 : BitVec 6),
    ((pcRel9 s off9).toNat : Int) = ((s.pc.toNat : Int) + off9.toInt) % 65536 ∧
    ((pcRel11 s off11).toNat : Int) = ((s.pc.toNat : Int) + off11.toInt) % 65536 ∧
    ((baseOffset6 s b off6).toNat : Int) = (((s.reg b).toNat : Int) + off6.toInt) % 65536

/-- An offset field an assembler writes reaches its label, and every offset is written for the label it reaches
(30_encoding R69; the difference modulo 65536 is the model's reading, log entry 23). -/
def Obligations.AssembledOffsetsReachTheirLabels : Prop :=
  (∀ (label addr : Word) (o : BitVec 9), assembleOffset 9 label addr = some o ↔ addr + 1#16 + o.signExtend 16 = label) ∧
    ∀ (label addr : Word) (o : BitVec 11), assembleOffset 11 label addr = some o ↔ addr + 1#16 + o.signExtend 16 = label

/-! ### Reset, the image and the loop -/

/-- Every state element has its reset value, for every value of the parameters (10_state R33). -/
def Obligations.ResetGivesEveryElementItsValue : Prop :=
  ∀ c : Config, (∀ r, (State.resetWith c).reg r = 0x0000#16) ∧ (State.resetWith c).pc = c.pcStart ∧
    (State.resetWith c).cond = 0x0000#16 ∧ (∀ a, (State.resetWith c).readMem a = 0x0000#16) ∧
    (State.resetWith c).runState = .running ∧ (State.resetWith c).output = []

/-- The invariant holds at reset, whatever the parameters (derived: 10_state R33, and the form of memory, log entry 9). -/
def Obligations.InvariantHoldsAtReset : Prop := ∀ c : Config, Inv (State.resetWith c)

/-- Every step from every state that meets the invariant gives one that meets it: memory stays canonical (log entry 9),
COND holds no flag or exactly one (10_state R23, R24), a step in progress is the latched routine's in Running (log entries
6 and 7), Halted was entered by HALT (40 R76), and an error's record fits the instruction that raised it (60 R131, R132). -/
def Obligations.InvariantKeptByEveryStep : Prop := ∀ s t : State, Inv s → step s = .next t → Inv t

/-- COND never loses its flag: once it holds one of P, Z, N it always holds exactly one (10_state R24; the values: 92 D5,
log entry 14). -/
def Obligations.CondKeepsAFlagOnceWritten : Prop :=
  ∀ s t : State, s.cond ∈ [0x0001#16, 0x0002#16, 0x0004#16] → step s = .next t → t.cond ∈ [0x0001#16, 0x0002#16, 0x0004#16]

/-- A step in Running with none in progress is the fetch, which latches the word at PC and advances PC by one modulo
65536, then exec of the instruction that word decodes to (40_execution_loop R70, R75; that no step is in progress is a
condition of the model's own, log entry 6). -/
def Obligations.StepRunsTheDecodedInstruction : Prop :=
  ∀ (s : State) (i : Instr), Ready s → decode (s.readMem s.pc) = i → i.wf = true →
    step s = exec i s.fetch ∧ s.fetch.ir = s.readMem s.pc ∧ s.fetch.pc.toNat = (s.pc.toNat + 1) % 65536 ∧
      RegsSameBut [] s s.fetch ∧ MemSame s s.fetch ∧ ConsoleSame s s.fetch ∧ s.fetch.cond = s.cond ∧
      s.fetch.runState = s.runState ∧ s.fetch.hold = s.hold ∧ s.fetch.config = s.config

/-- After `withFetchWord` the very next step runs exactly the word's instruction, from every state (the model's own
operation, log entry 22). -/
def Obligations.PlacedWordRunsNext : Prop :=
  ∀ (s : State) (w : Word), ∃ t : State, Ready t ∧ t.pc = s.pc + 1#16 ∧ t.ir = w ∧ RegsSameBut [] s t ∧ MemSameBut s.pc s t ∧
    ConsoleSame s t ∧ t.cond = s.cond ∧ t.config = s.config ∧ step (s.withFetchWord 16 w.toNat) = exec (decode w) t

/-- No step of any state ends in a fault or a refusal of the host's interface. That each of these three is a next state is the
model's reading: a step that raises an error (60_exceptions R129, 10_state R27; log entry 10), a GETC or IN that still waits
for its answer (44_trap R115; log entry 6), and a PUTS or PUTSP that meets no terminator (R123; log entry 7). The last two do
not end the spec's step: the model's next state is one inside it, with `hold` set. -/
def Obligations.EveryStepAnswersANextState : Prop := ∀ s : State, ∃ t, step s = .next t

/-- Halted and Error are absorbing: no number of steps changes anything, and `run` reports the status at once
(40_execution_loop R79, R80). -/
def Obligations.StoppedMachineStays : Prop :=
  ∀ s : State, s.runState ≠ .running → (∀ n, stepN n s = .next s) ∧ ∀ fuel, run fuel s = some s.runState

/-- Running to Halted happens only when the TRAP HALT routine runs (40_execution_loop R76). -/
def Obligations.HaltedOnlyByHalt : Prop :=
  ∀ s t : State, s.runState = .running → step s = .next t → t.runState = .halted →
    s.hold = none ∧ ∃ dc, decode (s.readMem s.pc) = .halt dc

/-- A step that starts in Running and raises an error does so for the cause its kind names, records the instruction's
address and word, and leaves PC at the incremented value (40_execution_loop R78; 60_exceptions R131, R132, R134; the
record is 92 D15, log entry 19). -/
def Obligations.ErrorsHaveTheirCauseAndRecord : Prop :=
  ∀ (s t : State) (e : ErrorInfo), Ready s → step s = .next t → t.runState = .error e →
    e.addr = s.pc ∧ e.word = s.readMem s.pc ∧ t.pc = s.pc + 1#16 ∧
    match e.kind with
    | .invalidOpcode => ∃ x, decode e.word = .reserved8 x ∨ decode e.word = .reserved13 x
    | .ioFailure => (∃ dc, decode e.word = .getc dc ∨ decode e.word = .in_ dc) ∧
        (s.input.head? = some .endOfStream ∨ s.input.head? = some .failure)
    | .invalidTrapVector => ∃ dc v, decode e.word = .trap dc v

/-- After a step that fetched, PC is the incremented value unless the instruction is a BR that is taken, a JMP (RET), a JSR
or a JSRR; a step that reports an error leaves it at the incremented value (40_execution_loop R71). -/
def Obligations.OnlyControlTransfersReplaceTheIncrementedPc : Prop :=
  ∀ s t : State, Ready s → step s = .next t →
    (writesPc (decode (s.readMem s.pc)) = false → t.pc = s.pc + 1#16) ∧
    (∀ n z p off9, decode (s.readMem s.pc) = .br n z p off9 → branchTaken n z p s.cond = false → t.pc = s.pc + 1#16) ∧
    ∀ e, t.runState = .error e → t.pc = s.pc + 1#16

/-- Every general register outside an instruction's row of the table of 10_state R15 is unchanged by it. -/
def Obligations.RegistersWrittenOnlyByTheirWriters : Prop :=
  ∀ (i : Instr) (s t : State) (r : Reg), exec i s = .next t → r ∉ writtenRegs s.config i → t.reg r = s.reg r

/-- Only the seven flag-writing instructions write COND, each with `setcc` of the value DR holds after it
(10_state R25; 41_arith_logic R87). -/
def Obligations.CondWrittenOnlyByFlagWriters : Prop :=
  ∀ (i : Instr) (s t : State), exec i s = .next t →
    (flagWriter i = none → t.cond = s.cond) ∧ ∀ dr, flagWriter i = some dr → t.cond = condOf (t.reg dr)

/-- Only BR reads COND: change COND alone, and every other instruction ends in the same state but for COND, which is then
either unchanged by it or the same in both runs. No instruction moves COND into a register or into memory: BR, the one
that reads it, writes neither (10_state R26). -/
def Obligations.OnlyBrReadsCond : Prop :=
  (∀ (i : Instr) (s : State) (c : Word), isBr i = false →
    ∃ t, exec i s = .next t ∧ exec i (s.setCond c) = .next (t.setCond (if flagWriter i = none then c else t.cond))) ∧
  ∀ (i : Instr) (s t : State), isBr i = true → exec i s = .next t → RegsSameBut [] s t ∧ MemSame s t

/-- Every word of memory an instruction does not store to is unchanged, and only ST, STI and STR store (20_memory R38). -/
def Obligations.MemoryWrittenOnlyByStores : Prop :=
  ∀ (i : Instr) (s t : State) (a : Word), exec i s = .next t → storeAddress s i ≠ some a → t.readMem a = s.readMem a

/-- Apart from the trap routines every handler is a function of registers (PC and COND with them), memory and the
instruction's word: with other console channels, parameters and step in progress it does the same, and it leaves those as
they are (40_execution_loop R83). -/
def Obligations.NonTrapHandlersArePure : Prop :=
  ∀ (i : Instr) (s : State) (xs : List InAnswer) (ys : List Byte) (h : Option Hold) (c : Config), isTrap i = false →
    ∃ t, exec i s = .next t ∧ exec i { s with input := xs, output := ys, hold := h, config := c } =
      .next { t with input := xs, output := ys, hold := h, config := c }

/-- The output is only ever appended to, answers are taken one at a time from the oldest, and no step changes the
parameters (44_trap R113, R115; 00_scope R6; answers as a list: log entry 5, parameters in State: log entry 2). -/
def Obligations.ConsoleChannelsKeepTheirOrder : Prop :=
  ∀ s t : State, step s = .next t →
    (∃ bs, t.output = s.output ++ bs) ∧ (t.input = s.input ∨ ∃ a, s.input = a :: t.input) ∧ t.config = s.config

/-- A store to the address after it is what the next step runs, by ST, STI and STR alike (20_memory R49). -/
def Obligations.StoredWordIsTheNextFetched : Prop :=
  ∀ (s : State) (sr : Reg), Ready s →
    (∀ off9, decode (s.readMem s.pc) = .st sr off9 → pcRel9 s.fetch off9 = s.pc + 1#16 →
      ∃ t, step s = .next t ∧ step t = exec (decode (s.reg sr)) t.fetch) ∧
    (∀ off9, decode (s.readMem s.pc) = .sti sr off9 → indirect9 s.fetch off9 = s.pc + 1#16 →
      ∃ t, step s = .next t ∧ step t = exec (decode (s.reg sr)) t.fetch) ∧
    ∀ b off6, decode (s.readMem s.pc) = .str sr b off6 → baseOffset6 s.fetch b off6 = s.pc + 1#16 →
      ∃ t, step s = .next t ∧ step t = exec (decode (s.reg sr)) t.fetch

/-- Two canonical memories that read alike at every address are equal: the form has one list for each content of the
65536 cells (derived: 20_memory R34, R35; the form is the model's, log entry 9). -/
def Obligations.MemoriesThatReadAlikeAreEqual : Prop :=
  ∀ m n : Memory, m.wf → n.wf → (∀ a, m.read a = n.read a) → m = n

/-- The loader under `fixed_start`: an odd byte length and an image that does not fit above `PC_START` are malformed; any
other image leaves byte pair `i`, big-endian, at `PC_START + i`, every other cell 0, and all else as reset
(70_reset_and_hazards R149, R150; the fit is 92 D18, log entry 20). -/
def Obligations.BootPlacesTheImage : Prop :=
  ∀ (c : Config) (image : List Byte), c.loaderOriginMode = .fixedStart →
    (image.length % 2 = 1 ∨ 65536 - c.pcStart.toNat < image.length / 2 → boot c image = .error .malformedImage) ∧
    (image.length % 2 = 0 → image.length / 2 ≤ 65536 - c.pcStart.toNat → ∃ t, boot c image = .ok t ∧
      (∀ i, i < image.length / 2 → (t.readMem (c.pcStart + BitVec.ofNat 16 i)).toNat =
        256 * (image.getD (2 * i) 0#8).toNat + (image.getD (2 * i + 1) 0#8).toNat) ∧
      (∀ a : Word, image.length / 2 ≤ (a - c.pcStart).toNat → t.readMem a = 0x0000#16) ∧
      { t with mem := Memory.empty } = State.resetWith c)

/-- The loader under `origin_word`: the first word of the image is the load address of the rest, and the core still starts
at `PC_START` (70_reset_and_hazards R151; that the rest must fit above that address is the model's, log entry 20). -/
def Obligations.BootHonoursTheOriginWord : Prop :=
  ∀ (c : Config) (hi lo : Byte) (rest : List Byte), c.loaderOriginMode = .originWord → rest.length % 2 = 0 →
    rest.length / 2 ≤ 65536 - (wordOfBytes hi lo).toNat → ∃ t, boot c (hi :: lo :: rest) = .ok t ∧
      (wordOfBytes hi lo).toNat = 256 * hi.toNat + lo.toNat ∧
      (∀ i, i < rest.length / 2 → (t.readMem (wordOfBytes hi lo + BitVec.ofNat 16 i)).toNat =
        256 * (rest.getD (2 * i) 0#8).toNat + (rest.getD (2 * i + 1) 0#8).toNat) ∧
      (∀ a : Word, rest.length / 2 ≤ (a - wordOfBytes hi lo).toNat → t.readMem a = 0x0000#16) ∧
      { t with mem := Memory.empty } = State.resetWith c

/-! ### Arithmetic and logic -/

/-- ADD, register form: the sum modulo 65536, `setcc` of it, nothing else; its words (41_arith_logic R88). -/
def Obligations.AddRegisterForm : Prop :=
  (∀ (dr sr1 sr2 : Reg) (dc : BitVec 2) (s : State), ∃ t, exec (.addReg dr sr1 dc sr2) s = .next t ∧
    (t.reg dr).toNat = ((s.reg sr1).toNat + (s.reg sr2).toNat) % 65536 ∧ t.cond = condOf (t.reg dr) ∧
    OnlyRegAndCond dr s t) ∧
  RowDecodes 0xF020#16 0x1000#16 fun w => .addReg (regField w 9) (regField w 6) (w.extractLsb' 3 2) (regField w 0)

/-- ADD, immediate form: the sum with the sign-extended imm5 modulo 65536, `setcc` of it, nothing else; its words
(41_arith_logic R89). -/
def Obligations.AddImmediateForm : Prop :=
  (∀ (dr sr1 : Reg) (imm5 : BitVec 5) (s : State), ∃ t, exec (.addImm dr sr1 imm5) s = .next t ∧
    ((t.reg dr).toNat : Int) = (((s.reg sr1).toNat : Int) + imm5.toInt) % 65536 ∧ t.cond = condOf (t.reg dr) ∧
    OnlyRegAndCond dr s t) ∧
  RowDecodes 0xF020#16 0x1020#16 fun w => .addImm (regField w 9) (regField w 6) (w.extractLsb' 0 5)

/-- AND, register form, bit by bit (41_arith_logic R90; the opcode number is 92 D3, log entry 12, COND's values 92 D5,
log entry 14). -/
def Obligations.AndRegisterForm : Prop :=
  (∀ (dr sr1 sr2 : Reg) (dc : BitVec 2) (s : State), ∃ t, exec (.andReg dr sr1 dc sr2) s = .next t ∧
    (∀ k, k < 16 → (t.reg dr).getLsbD k = ((s.reg sr1).getLsbD k && (s.reg sr2).getLsbD k)) ∧
    CondSays t.cond (t.reg dr) ∧ OnlyRegAndCond dr s t) ∧
  RowDecodes 0xF020#16 0x5000#16 fun w => .andReg (regField w 9) (regField w 6) (w.extractLsb' 3 2) (regField w 0)

/-- AND, immediate form (41_arith_logic R91; 92 D3, D5: log entries 12, 14). -/
def Obligations.AndImmediateForm : Prop :=
  (∀ (dr sr1 : Reg) (imm5 : BitVec 5) (s : State), ∃ t, exec (.andImm dr sr1 imm5) s = .next t ∧
    (∀ k, k < 16 → (t.reg dr).getLsbD k = ((s.reg sr1).getLsbD k && imm5.getLsbD (min k 4))) ∧
    CondSays t.cond (t.reg dr) ∧ OnlyRegAndCond dr s t) ∧
  RowDecodes 0xF020#16 0x5020#16 fun w => .andImm (regField w 9) (regField w 6) (w.extractLsb' 0 5)

/-- NOT (41_arith_logic R92; 92 D3, D5: log entries 12, 14). -/
def Obligations.NotComplements : Prop :=
  (∀ (dr sr : Reg) (dc : BitVec 6) (s : State), ∃ t, exec (.not dr sr dc) s = .next t ∧
    (t.reg dr).toNat = 65535 - (s.reg sr).toNat ∧ CondSays t.cond (t.reg dr) ∧ OnlyRegAndCond dr s t) ∧
  RowDecodes 0xF000#16 0x9000#16 fun w => .not (regField w 9) (regField w 6) (w.extractLsb' 0 6)

/-! ### Data movement -/

/-- LD (42_data_movement R95; 92 D3, D5: log entries 12, 14). -/
def Obligations.LdLoadsPcRelative : Prop :=
  (∀ (dr : Reg) (off9 : BitVec 9) (s : State), ∃ t, exec (.ld dr off9) s = .next t ∧
    t.reg dr = s.readMem (s.pc + off9.signExtend 16) ∧ CondSays t.cond (t.reg dr) ∧ OnlyRegAndCond dr s t) ∧
  RowDecodes 0xF000#16 0x2000#16 fun w => .ld (regField w 9) (w.extractLsb' 0 9)

/-- LDI: the word at the address the word at PC + PCoffset9 holds, `setcc` of it, nothing else; its words
(42_data_movement R96). -/
def Obligations.LdiLoadsThroughThePointer : Prop :=
  (∀ (dr : Reg) (off9 : BitVec 9) (s : State), ∃ t, exec (.ldi dr off9) s = .next t ∧
    t.reg dr = s.readMem (s.readMem (s.pc + off9.signExtend 16)) ∧ t.cond = condOf (t.reg dr) ∧ OnlyRegAndCond dr s t) ∧
  RowDecodes 0xF000#16 0xA000#16 fun w => .ldi (regField w 9) (w.extractLsb' 0 9)

/-- LDR, with the old base when DR = BaseR (42_data_movement R97; 92 D3, D5: log entries 12, 14). -/
def Obligations.LdrLoadsBaseOffset : Prop :=
  (∀ (dr b : Reg) (off6 : BitVec 6) (s : State), ∃ t, exec (.ldr dr b off6) s = .next t ∧
    t.reg dr = s.readMem (s.reg b + off6.signExtend 16) ∧ CondSays t.cond (t.reg dr) ∧ OnlyRegAndCond dr s t) ∧
  RowDecodes 0xF000#16 0x6000#16 fun w => .ldr (regField w 9) (regField w 6) (w.extractLsb' 0 6)

/-- LEA: the address itself, and COND from it (42_data_movement R98; 92 D3, D5: log entries 12, 14). -/
def Obligations.LeaGivesTheAddress : Prop :=
  (∀ (dr : Reg) (off9 : BitVec 9) (s : State), ∃ t, exec (.lea dr off9) s = .next t ∧
    ((t.reg dr).toNat : Int) = ((s.pc.toNat : Int) + off9.toInt) % 65536 ∧ CondSays t.cond (t.reg dr) ∧
    OnlyRegAndCond dr s t) ∧
  RowDecodes 0xF000#16 0xE000#16 fun w => .lea (regField w 9) (w.extractLsb' 0 9)

/-- ST: one word at PC + PCoffset9, nothing else (42_data_movement R99; 92 D3, log entry 12). -/
def Obligations.StStoresPcRelative : Prop :=
  (∀ (sr : Reg) (off9 : BitVec 9) (s : State), ∃ t, exec (.st sr off9) s = .next t ∧
    t.readMem (pcRel9 s off9) = s.reg sr ∧ pcRel9 s off9 = s.pc + off9.signExtend 16 ∧ OnlyMemWord (pcRel9 s off9) s t) ∧
  RowDecodes 0xF000#16 0x3000#16 fun w => .st (regField w 9) (w.extractLsb' 0 9)

/-- STI: one word at the address the word at PC + PCoffset9 held before the write, nothing else (42_data_movement R100;
92 D3, log entry 12). -/
def Obligations.StiStoresThroughThePointer : Prop :=
  (∀ (sr : Reg) (off9 : BitVec 9) (s : State), ∃ t, exec (.sti sr off9) s = .next t ∧
    t.readMem (indirect9 s off9) = s.reg sr ∧ indirect9 s off9 = s.readMem (s.pc + off9.signExtend 16) ∧
    OnlyMemWord (indirect9 s off9) s t) ∧
  RowDecodes 0xF000#16 0xB000#16 fun w => .sti (regField w 9) (w.extractLsb' 0 9)

/-- STR: one word at BaseR + offset6, nothing else (42_data_movement R101; 92 D3, log entry 12). -/
def Obligations.StrStoresBaseOffset : Prop :=
  (∀ (sr b : Reg) (off6 : BitVec 6) (s : State), ∃ t, exec (.str sr b off6) s = .next t ∧
    t.readMem (baseOffset6 s b off6) = s.reg sr ∧ baseOffset6 s b off6 = s.reg b + off6.signExtend 16 ∧
    OnlyMemWord (baseOffset6 s b off6) s t) ∧
  RowDecodes 0xF000#16 0x7000#16 fun w => .str (regField w 9) (regField w 6) (w.extractLsb' 0 6)

/-! ### Control transfer -/

/-- BR: taken iff the mask names a flag COND holds (43_control_transfer R105; which bit tests which flag: 92 D5, log entry 14);
with COND = 0, its reset value, never taken. -/
def Obligations.BrTestsTheMaskAgainstCond : Prop :=
  (∀ (n z p : Bool) (off9 : BitVec 9) (s : State), ∃ t, exec (.br n z p off9) s = .next t ∧
    t.pc = (if (n && s.cond.getLsbD 2) || (z && s.cond.getLsbD 1) || (p && s.cond.getLsbD 0)
      then s.pc + off9.signExtend 16 else s.pc) ∧ OnlyPcAndRegs [] s t) ∧
  RowDecodes 0xF000#16 0x0000#16 fun w => .br (w.getLsbD 11) (w.getLsbD 10) (w.getLsbD 9) (w.extractLsb' 0 9)

/-- JMP, and that every word of opcode 12 runs as the JMP with its fields, RET's words included (43_control_transfer
R106, R107; the opcode number is 92 D3, log entry 12; the two constructors are the model's, log entry 11). -/
def Obligations.JmpGoesToTheBaseRegister : Prop :=
  (∀ (dcHi : BitVec 3) (b : Reg) (dcLo : BitVec 6) (s : State), ∃ t, exec (.jmp dcHi b dcLo) s = .next t ∧
    t.pc = s.reg b ∧ OnlyPcAndRegs [] s t) ∧
  ∀ (w : Word) (s : State), w &&& 0xF000#16 = 0xC000#16 →
    exec (decode w) s = exec (.jmp (w.extractLsb' 9 3) (regField w 6) (w.extractLsb' 0 6)) s

/-- RET (43_control_transfer R107; the opcode number is 92 D3, log entry 12). -/
def Obligations.RetGoesToR7 : Prop :=
  (∀ (dcHi : BitVec 3) (dcLo : BitVec 6) (s : State), ∃ t, exec (.ret dcHi dcLo) s = .next t ∧
    t.pc = s.reg .r7 ∧ OnlyPcAndRegs [] s t) ∧
  RowDecodes 0xF1C0#16 0xC1C0#16 fun w => .ret (w.extractLsb' 9 3) (w.extractLsb' 0 6)

/-- JSR: the link is the incremented PC, the target is that PC plus the offset (43_control_transfer R108; 92 D3, log entry
12). -/
def Obligations.JsrLinksAndJumps : Prop :=
  (∀ (off11 : BitVec 11) (s : State), ∃ t, exec (.jsr off11) s = .next t ∧
    t.reg .r7 = s.pc ∧ t.pc = s.pc + off11.signExtend 16 ∧ OnlyPcAndRegs [.r7] s t) ∧
  RowDecodes 0xF800#16 0x4800#16 fun w => .jsr (w.extractLsb' 0 11)

/-- JSRR: the link is made first, so with BaseR = R7 the target is the link itself (43_control_transfer R109; 92 D3, log
entry 12). -/
def Obligations.JsrrLinksThenReadsTheBase : Prop :=
  (∀ (dcHi : BitVec 2) (b : Reg) (dcLo : BitVec 6) (s : State), ∃ t, exec (.jsrr dcHi b dcLo) s = .next t ∧
    t.reg .r7 = s.pc ∧ t.pc = (if b = .r7 then s.pc else s.reg b) ∧ OnlyPcAndRegs [.r7] s t) ∧
  RowDecodes 0xF800#16 0x4000#16 fun w => .jsrr (w.extractLsb' 9 2) (regField w 6) (w.extractLsb' 0 6)

/-- The reserved opcodes raise InvalidOpcode, whatever the payload, and change nothing else (40_execution_loop R74; the
record is 92 D15, log entry 19; the error is a next state, log entry 10). -/
def Obligations.ReservedOpcodesRaiseInvalidOpcode : Prop :=
  (∀ (payload : BitVec 12) (s : State),
    (∃ t, exec (.reserved8 payload) s = .next t ∧ t.runState = .error ⟨.invalidOpcode, s.pc - 1#16, s.ir⟩ ∧
      OnlyRunState s t) ∧
    ∃ t, exec (.reserved13 payload) s = .next t ∧ t.runState = .error ⟨.invalidOpcode, s.pc - 1#16, s.ir⟩ ∧
      OnlyRunState s t) ∧
  RowDecodes 0xF000#16 0x8000#16 (fun w => .reserved8 (w.extractLsb' 0 12)) ∧
  RowDecodes 0xF000#16 0xD000#16 fun w => .reserved13 (w.extractLsb' 0 12)

/-! ### Traps -/

/-- A TRAP whose vector is not one of 0x20–0x25 makes the optional link and raises InvalidTrapVector, nothing else
(44_trap R122; the kind is 92 D7, log entry 16, the vectors D4, log entry 13). What the error records, the address PC − 1 and
the word IR, is 60_exceptions R132 and 92 D15, log entry 19; that it is a next state is log entry 10. -/
def Obligations.UnknownVectorRaisesInvalidTrapVector : Prop :=
  (∀ (dc : BitVec 4) (v : BitVec 8) (s : State), v.toNat < 0x20 ∨ 0x25 < v.toNat →
    ∃ t, exec (.trap dc v) s = .next t ∧ t.runState = .error ⟨.invalidTrapVector, s.pc - 1#16, s.ir⟩ ∧ TrapFrame s t ∧
      RegsSameBut [.r7] s t ∧ ConsoleSame s t ∧ t.hold = s.hold) ∧
  ∀ w : Word, w &&& 0xF000#16 = 0xF000#16 → (w.extractLsb' 0 8).toNat < 0x20 ∨ 0x25 < (w.extractLsb' 0 8).toNat →
    decode w = .trap (w.extractLsb' 8 4) (w.extractLsb' 0 8)

/-- TRAP answers a next state whatever its vector, with the optional link made, memory, COND, PC, IR, the parameters and
every register but R0 and R7 unchanged; with a named vector it runs as that routine's instruction, and the words of the six
vectors decode to those instructions (44_trap R114; the vectors are 92 D4, log entry 13; the constructors of their own are log
entry 11). The next state need not be the end of the spec's step: under GETC or IN with no answer (R115; log entry 6), and
under PUTS or PUTSP with no terminator (R123; log entry 7), it is one inside the step, with `hold` set. For an unknown vector
it is the error (R122; 92 D7, log entry 16; a next state by log entry 10). -/
def Obligations.VectorSelectsTheRoutine : Prop :=
  (∀ (dc : BitVec 4) (v : BitVec 8) (s : State), ∃ t, exec (.trap dc v) s = .next t ∧ TrapFrame s t ∧
    RegsSameBut [.r0, .r7] s t) ∧
  (∀ (dc d : BitVec 4) (s : State),
    exec (.trap dc 0x20#8) s = exec (.getc d) s ∧ exec (.trap dc 0x21#8) s = exec (.out d) s ∧
    exec (.trap dc 0x22#8) s = exec (.puts d) s ∧ exec (.trap dc 0x23#8) s = exec (.in_ d) s ∧
    exec (.trap dc 0x24#8) s = exec (.putsp d) s ∧ exec (.trap dc 0x25#8) s = exec (.halt d) s) ∧
  RowDecodes 0xF0FF#16 0xF020#16 (fun w => .getc (w.extractLsb' 8 4)) ∧
  RowDecodes 0xF0FF#16 0xF021#16 (fun w => .out (w.extractLsb' 8 4)) ∧
  RowDecodes 0xF0FF#16 0xF022#16 (fun w => .puts (w.extractLsb' 8 4)) ∧
  RowDecodes 0xF0FF#16 0xF023#16 (fun w => .in_ (w.extractLsb' 8 4)) ∧
  RowDecodes 0xF0FF#16 0xF024#16 (fun w => .putsp (w.extractLsb' 8 4)) ∧
  RowDecodes 0xF0FF#16 0xF025#16 fun w => .halt (w.extractLsb' 8 4)

/-- GETC with a byte there: R0 is the byte, zero-extended, no echo; with the end of the input or a failure: IOFailure and R0
unchanged (44_trap R115, R116; answers as a list: log entry 5; the record: 92 D15, log entry 19). -/
def Obligations.GetcReadsOneByte : Prop :=
  ∀ (dc : BitVec 4) (s : State) (rest : List InAnswer),
    (∀ b, s.input = .byte b :: rest → ∃ t, exec (.getc dc) s = .next t ∧ (t.reg .r0).toNat = b.toNat ∧
      RegsSameBut [.r0, .r7] s t ∧ TrapFrame s t ∧ t.runState = s.runState ∧ t.hold = none ∧ t.input = rest ∧
      t.output = s.output) ∧
    (s.input = .endOfStream :: rest ∨ s.input = .failure :: rest → ∃ t, exec (.getc dc) s = .next t ∧
      t.runState = .error ⟨.ioFailure, s.pc - 1#16, s.ir⟩ ∧ RegsSameBut [.r7] s t ∧ TrapFrame s t ∧ t.hold = none ∧
      t.input = rest ∧ t.output = s.output)

/-- OUT outputs the low byte of R0 (44_trap R117; 92 D10, log entry 17). -/
def Obligations.OutWritesTheLowByte : Prop :=
  ∀ (dc : BitVec 4) (s : State), ∃ t, exec (.out dc) s = .next t ∧
    t.output = s.output ++ [(s.reg .r0).extractLsb' 0 8] ∧ RegsSameBut [.r7] s t ∧ TrapFrame s t ∧
    t.runState = s.runState ∧ t.hold = s.hold ∧ t.input = s.input

/-- PUTS outputs the low byte of every word before the first one whose low byte is zero; if no word's is, it has output the
low byte of all 65536 and its step is not over (44_trap R118, R123; the terminator outputs nothing and R0 stays: 92 D11,
log entry 17; a step not over: log entry 7). -/
def Obligations.PutsWritesLowBytes : Prop :=
  ∀ (dc : BitVec 4) (s : State),
    (∀ k, StringLength s (s.reg .r0) k → ∃ t, exec (.puts dc) s = .next t ∧
      t.output = s.output ++ (List.range k).map (fun j => (wordAt s (s.reg .r0) j).extractLsb' 0 8) ∧ t.hold = none ∧
      RegsSameBut [.r7] s t ∧ TrapFrame s t ∧ t.runState = s.runState ∧ t.input = s.input) ∧
    (Unterminated s → ∃ t, exec (.puts dc) s = .next t ∧ t.hold = some .puts ∧
      t.output = s.output ++ (List.range addressCount).map (fun j => (wordAt s (s.reg .r0) j).extractLsb' 0 8) ∧
      RegsSameBut [.r7] s t ∧ TrapFrame s t ∧ t.runState = s.runState ∧ t.input = s.input)

/-- IN outputs the prompt, then reads as GETC and echoes; on IOFailure the prompt stays output and R0 unchanged (44_trap R115,
R119; the prompt is a parameter, log entry 4; answers as a list: log entry 5; the record: 92 D15, log entry 19). -/
def Obligations.InPromptsReadsAndEchoes : Prop :=
  ∀ (dc : BitVec 4) (s : State) (rest : List InAnswer),
    (∀ b, s.input = .byte b :: rest → ∃ t, exec (.in_ dc) s = .next t ∧ (t.reg .r0).toNat = b.toNat ∧
      t.output = s.output ++ s.config.inPrompt ++ [b] ∧ RegsSameBut [.r0, .r7] s t ∧ TrapFrame s t ∧
      t.runState = s.runState ∧ t.hold = none ∧ t.input = rest) ∧
    (s.input = .endOfStream :: rest ∨ s.input = .failure :: rest → ∃ t, exec (.in_ dc) s = .next t ∧
      t.runState = .error ⟨.ioFailure, s.pc - 1#16, s.ir⟩ ∧ t.output = s.output ++ s.config.inPrompt ∧
      RegsSameBut [.r7] s t ∧ TrapFrame s t ∧ t.hold = none ∧ t.input = rest)

/-- PUTSP outputs, of every word before the first one whose low byte is zero, the low byte and then the high byte if it is
nonzero; if no word's low byte is zero, it has output those of all 65536 and its step is not over (44_trap R120, R123; log
entries 7 and 17). -/
def Obligations.PutspWritesPackedBytes : Prop :=
  ∀ (dc : BitVec 4) (s : State),
    (∀ k, StringLength s (s.reg .r0) k → ∃ t, exec (.putsp dc) s = .next t ∧
      t.output = s.output ++ (List.range k).flatMap (fun j => packedBytes (wordAt s (s.reg .r0) j)) ∧ t.hold = none ∧
      RegsSameBut [.r7] s t ∧ TrapFrame s t ∧ t.runState = s.runState ∧ t.input = s.input) ∧
    (Unterminated s → ∃ t, exec (.putsp dc) s = .next t ∧ t.hold = some .putsp ∧
      t.output = s.output ++ (List.range addressCount).flatMap (fun j => packedBytes (wordAt s (s.reg .r0) j)) ∧
      RegsSameBut [.r7] s t ∧ TrapFrame s t ∧ t.runState = s.runState ∧ t.input = s.input)

/-- HALT: the run state becomes Halted; no output, and all else survives (44_trap R121; no output is 92 D13, log entry 17). -/
def Obligations.HaltStopsTheMachine : Prop :=
  ∀ (dc : BitVec 4) (s : State), ∃ t, exec (.halt dc) s = .next t ∧ t.runState = .halted ∧ RegsSameBut [.r7] s t ∧
    TrapFrame s t ∧ ConsoleSame s t ∧ t.hold = s.hold

/-- GETC and IN with no answer yet: the step holds, a request is pending, further steps change nothing, and an answer lets
the step end exactly as if it had been there from the start (44_trap R115; 60_exceptions R128, R138; the held state is the
model's, log entry 6). -/
def Obligations.InputWaitHoldsUntilAnswered : Prop :=
  ∀ (dc : BitVec 4) (s : State), s.runState = .running → s.input = [] →
    (∃ t, exec (.getc dc) s = .next t ∧ t.hold = some .getc ∧ t.inReq = true ∧ t.runState = .running ∧ t.output = s.output ∧
      RegsSameBut [.r7] s t ∧ TrapFrame s t ∧ step t = .next t ∧ ∀ a, step (t.answer a) = exec (.getc dc) (s.answer a)) ∧
    ∃ t, exec (.in_ dc) s = .next t ∧ t.hold = some .in_ ∧ t.inReq = true ∧ t.runState = .running ∧
      t.output = s.output ++ s.config.inPrompt ∧ RegsSameBut [.r7] s t ∧ TrapFrame s t ∧ step t = .next t ∧
      ∀ a, step (t.answer a) = exec (.in_ dc) (s.answer a)

/-- PUTS or PUTSP with no terminating word anywhere outputs without end and its step never completes, however many model
steps are taken: a run without an end (44_trap R123; 40_execution_loop R82; a pass of the scan as one model step is the
model's, log entry 7). -/
def Obligations.UnterminatedStringNeverCompletes : Prop :=
  ∀ s : State, Ready s → (∃ dc, decode (s.readMem s.pc) = .puts dc ∨ decode (s.readMem s.pc) = .putsp dc) → Unterminated s →
    ∀ n : Nat, ∃ t, stepN (n + 1) s = .next t ∧ t.runState = .running ∧ t.hold ≠ none ∧
      s.output.length + 65536 * (n + 1) ≤ t.output.length ∧ t.pc = s.pc + 1#16 ∧ RegsSameBut [.r7] s t ∧ MemSame s t ∧
      t.cond = s.cond ∧ t.input = s.input
end

