-- ==== Sys2Proof/Laws/State.lean ====
section
/-!
SUPPORT. What each update of the state does to each field: one lemma per field per update, true by rfl. Later proofs cite
these and unfold no record update.
-/

namespace Sys2Proof.Machine

/-! ### setReg -/

@[simp] theorem State.setReg_regs (s : State) (r : Reg) (v : Word) : (s.setReg r v).regs = s.regs.set r v := rfl
@[simp] theorem State.setReg_pc (s : State) (r : Reg) (v : Word) : (s.setReg r v).pc = s.pc := rfl
@[simp] theorem State.setReg_cond (s : State) (r : Reg) (v : Word) : (s.setReg r v).cond = s.cond := rfl
@[simp] theorem State.setReg_mem (s : State) (r : Reg) (v : Word) : (s.setReg r v).mem = s.mem := rfl
@[simp] theorem State.setReg_runState (s : State) (r : Reg) (v : Word) : (s.setReg r v).runState = s.runState := rfl
@[simp] theorem State.setReg_ir (s : State) (r : Reg) (v : Word) : (s.setReg r v).ir = s.ir := rfl
@[simp] theorem State.setReg_hold (s : State) (r : Reg) (v : Word) : (s.setReg r v).hold = s.hold := rfl
@[simp] theorem State.setReg_input (s : State) (r : Reg) (v : Word) : (s.setReg r v).input = s.input := rfl
@[simp] theorem State.setReg_output (s : State) (r : Reg) (v : Word) : (s.setReg r v).output = s.output := rfl
@[simp] theorem State.setReg_config (s : State) (r : Reg) (v : Word) : (s.setReg r v).config = s.config := rfl

/-! ### setPc -/

@[simp] theorem State.setPc_regs (s : State) (a : Word) : (s.setPc a).regs = s.regs := rfl
@[simp] theorem State.setPc_pc (s : State) (a : Word) : (s.setPc a).pc = a := rfl
@[simp] theorem State.setPc_cond (s : State) (a : Word) : (s.setPc a).cond = s.cond := rfl
@[simp] theorem State.setPc_mem (s : State) (a : Word) : (s.setPc a).mem = s.mem := rfl
@[simp] theorem State.setPc_runState (s : State) (a : Word) : (s.setPc a).runState = s.runState := rfl
@[simp] theorem State.setPc_ir (s : State) (a : Word) : (s.setPc a).ir = s.ir := rfl
@[simp] theorem State.setPc_hold (s : State) (a : Word) : (s.setPc a).hold = s.hold := rfl
@[simp] theorem State.setPc_input (s : State) (a : Word) : (s.setPc a).input = s.input := rfl
@[simp] theorem State.setPc_output (s : State) (a : Word) : (s.setPc a).output = s.output := rfl
@[simp] theorem State.setPc_config (s : State) (a : Word) : (s.setPc a).config = s.config := rfl

/-! ### setCond -/

@[simp] theorem State.setCond_regs (s : State) (c : Word) : (s.setCond c).regs = s.regs := rfl
@[simp] theorem State.setCond_pc (s : State) (c : Word) : (s.setCond c).pc = s.pc := rfl
@[simp] theorem State.setCond_cond (s : State) (c : Word) : (s.setCond c).cond = c := rfl
@[simp] theorem State.setCond_mem (s : State) (c : Word) : (s.setCond c).mem = s.mem := rfl
@[simp] theorem State.setCond_runState (s : State) (c : Word) : (s.setCond c).runState = s.runState := rfl
@[simp] theorem State.setCond_ir (s : State) (c : Word) : (s.setCond c).ir = s.ir := rfl
@[simp] theorem State.setCond_hold (s : State) (c : Word) : (s.setCond c).hold = s.hold := rfl
@[simp] theorem State.setCond_input (s : State) (c : Word) : (s.setCond c).input = s.input := rfl
@[simp] theorem State.setCond_output (s : State) (c : Word) : (s.setCond c).output = s.output := rfl
@[simp] theorem State.setCond_config (s : State) (c : Word) : (s.setCond c).config = s.config := rfl

/-! ### setCC -/

@[simp] theorem State.setCC_regs (s : State) (v : Word) : (s.setCC v).regs = s.regs := rfl
@[simp] theorem State.setCC_pc (s : State) (v : Word) : (s.setCC v).pc = s.pc := rfl
@[simp] theorem State.setCC_cond (s : State) (v : Word) : (s.setCC v).cond = condOf v := rfl
@[simp] theorem State.setCC_mem (s : State) (v : Word) : (s.setCC v).mem = s.mem := rfl
@[simp] theorem State.setCC_runState (s : State) (v : Word) : (s.setCC v).runState = s.runState := rfl
@[simp] theorem State.setCC_ir (s : State) (v : Word) : (s.setCC v).ir = s.ir := rfl
@[simp] theorem State.setCC_hold (s : State) (v : Word) : (s.setCC v).hold = s.hold := rfl
@[simp] theorem State.setCC_input (s : State) (v : Word) : (s.setCC v).input = s.input := rfl
@[simp] theorem State.setCC_output (s : State) (v : Word) : (s.setCC v).output = s.output := rfl
@[simp] theorem State.setCC_config (s : State) (v : Word) : (s.setCC v).config = s.config := rfl

/-! ### writeResult -/

@[simp] theorem State.writeResult_regs (s : State) (r : Reg) (v : Word) : (s.writeResult r v).regs = s.regs.set r v := rfl
@[simp] theorem State.writeResult_pc (s : State) (r : Reg) (v : Word) : (s.writeResult r v).pc = s.pc := rfl
@[simp] theorem State.writeResult_cond (s : State) (r : Reg) (v : Word) : (s.writeResult r v).cond = condOf v := rfl
@[simp] theorem State.writeResult_mem (s : State) (r : Reg) (v : Word) : (s.writeResult r v).mem = s.mem := rfl
@[simp] theorem State.writeResult_runState (s : State) (r : Reg) (v : Word) : (s.writeResult r v).runState = s.runState := rfl
@[simp] theorem State.writeResult_ir (s : State) (r : Reg) (v : Word) : (s.writeResult r v).ir = s.ir := rfl
@[simp] theorem State.writeResult_hold (s : State) (r : Reg) (v : Word) : (s.writeResult r v).hold = s.hold := rfl
@[simp] theorem State.writeResult_input (s : State) (r : Reg) (v : Word) : (s.writeResult r v).input = s.input := rfl
@[simp] theorem State.writeResult_output (s : State) (r : Reg) (v : Word) : (s.writeResult r v).output = s.output := rfl
@[simp] theorem State.writeResult_config (s : State) (r : Reg) (v : Word) : (s.writeResult r v).config = s.config := rfl

/-! ### writeMem -/

@[simp] theorem State.writeMem_regs (s : State) (a v : Word) : (s.writeMem a v).regs = s.regs := rfl
@[simp] theorem State.writeMem_pc (s : State) (a v : Word) : (s.writeMem a v).pc = s.pc := rfl
@[simp] theorem State.writeMem_cond (s : State) (a v : Word) : (s.writeMem a v).cond = s.cond := rfl
@[simp] theorem State.writeMem_mem (s : State) (a v : Word) : (s.writeMem a v).mem = s.mem.write a v := rfl
@[simp] theorem State.writeMem_runState (s : State) (a v : Word) : (s.writeMem a v).runState = s.runState := rfl
@[simp] theorem State.writeMem_ir (s : State) (a v : Word) : (s.writeMem a v).ir = s.ir := rfl
@[simp] theorem State.writeMem_hold (s : State) (a v : Word) : (s.writeMem a v).hold = s.hold := rfl
@[simp] theorem State.writeMem_input (s : State) (a v : Word) : (s.writeMem a v).input = s.input := rfl
@[simp] theorem State.writeMem_output (s : State) (a v : Word) : (s.writeMem a v).output = s.output := rfl
@[simp] theorem State.writeMem_config (s : State) (a v : Word) : (s.writeMem a v).config = s.config := rfl

/-! ### outBytes -/

@[simp] theorem State.outBytes_regs (s : State) (bs : List Byte) : (s.outBytes bs).regs = s.regs := rfl
@[simp] theorem State.outBytes_pc (s : State) (bs : List Byte) : (s.outBytes bs).pc = s.pc := rfl
@[simp] theorem State.outBytes_cond (s : State) (bs : List Byte) : (s.outBytes bs).cond = s.cond := rfl
@[simp] theorem State.outBytes_mem (s : State) (bs : List Byte) : (s.outBytes bs).mem = s.mem := rfl
@[simp] theorem State.outBytes_runState (s : State) (bs : List Byte) : (s.outBytes bs).runState = s.runState := rfl
@[simp] theorem State.outBytes_ir (s : State) (bs : List Byte) : (s.outBytes bs).ir = s.ir := rfl
@[simp] theorem State.outBytes_hold (s : State) (bs : List Byte) : (s.outBytes bs).hold = s.hold := rfl
@[simp] theorem State.outBytes_input (s : State) (bs : List Byte) : (s.outBytes bs).input = s.input := rfl
@[simp] theorem State.outBytes_output (s : State) (bs : List Byte) : (s.outBytes bs).output = s.output ++ bs := rfl
@[simp] theorem State.outBytes_config (s : State) (bs : List Byte) : (s.outBytes bs).config = s.config := rfl

/-! ### setInput -/

@[simp] theorem State.setInput_regs (s : State) (as : List InAnswer) : (s.setInput as).regs = s.regs := rfl
@[simp] theorem State.setInput_pc (s : State) (as : List InAnswer) : (s.setInput as).pc = s.pc := rfl
@[simp] theorem State.setInput_cond (s : State) (as : List InAnswer) : (s.setInput as).cond = s.cond := rfl
@[simp] theorem State.setInput_mem (s : State) (as : List InAnswer) : (s.setInput as).mem = s.mem := rfl
@[simp] theorem State.setInput_runState (s : State) (as : List InAnswer) : (s.setInput as).runState = s.runState := rfl
@[simp] theorem State.setInput_ir (s : State) (as : List InAnswer) : (s.setInput as).ir = s.ir := rfl
@[simp] theorem State.setInput_hold (s : State) (as : List InAnswer) : (s.setInput as).hold = s.hold := rfl
@[simp] theorem State.setInput_input (s : State) (as : List InAnswer) : (s.setInput as).input = as := rfl
@[simp] theorem State.setInput_output (s : State) (as : List InAnswer) : (s.setInput as).output = s.output := rfl
@[simp] theorem State.setInput_config (s : State) (as : List InAnswer) : (s.setInput as).config = s.config := rfl

/-! ### setHold -/

@[simp] theorem State.setHold_regs (s : State) (h : Option Hold) : (s.setHold h).regs = s.regs := rfl
@[simp] theorem State.setHold_pc (s : State) (h : Option Hold) : (s.setHold h).pc = s.pc := rfl
@[simp] theorem State.setHold_cond (s : State) (h : Option Hold) : (s.setHold h).cond = s.cond := rfl
@[simp] theorem State.setHold_mem (s : State) (h : Option Hold) : (s.setHold h).mem = s.mem := rfl
@[simp] theorem State.setHold_runState (s : State) (h : Option Hold) : (s.setHold h).runState = s.runState := rfl
@[simp] theorem State.setHold_ir (s : State) (h : Option Hold) : (s.setHold h).ir = s.ir := rfl
@[simp] theorem State.setHold_hold (s : State) (h : Option Hold) : (s.setHold h).hold = h := rfl
@[simp] theorem State.setHold_input (s : State) (h : Option Hold) : (s.setHold h).input = s.input := rfl
@[simp] theorem State.setHold_output (s : State) (h : Option Hold) : (s.setHold h).output = s.output := rfl
@[simp] theorem State.setHold_config (s : State) (h : Option Hold) : (s.setHold h).config = s.config := rfl

/-! ### setRunState -/

@[simp] theorem State.setRunState_regs (s : State) (q : RunState) : (s.setRunState q).regs = s.regs := rfl
@[simp] theorem State.setRunState_pc (s : State) (q : RunState) : (s.setRunState q).pc = s.pc := rfl
@[simp] theorem State.setRunState_cond (s : State) (q : RunState) : (s.setRunState q).cond = s.cond := rfl
@[simp] theorem State.setRunState_mem (s : State) (q : RunState) : (s.setRunState q).mem = s.mem := rfl
@[simp] theorem State.setRunState_runState (s : State) (q : RunState) : (s.setRunState q).runState = q := rfl
@[simp] theorem State.setRunState_ir (s : State) (q : RunState) : (s.setRunState q).ir = s.ir := rfl
@[simp] theorem State.setRunState_hold (s : State) (q : RunState) : (s.setRunState q).hold = s.hold := rfl
@[simp] theorem State.setRunState_input (s : State) (q : RunState) : (s.setRunState q).input = s.input := rfl
@[simp] theorem State.setRunState_output (s : State) (q : RunState) : (s.setRunState q).output = s.output := rfl
@[simp] theorem State.setRunState_config (s : State) (q : RunState) : (s.setRunState q).config = s.config := rfl

/-! ### raise -/

@[simp] theorem State.raise_regs (s : State) (k : ErrorKind) : (s.raise k).regs = s.regs := rfl
@[simp] theorem State.raise_pc (s : State) (k : ErrorKind) : (s.raise k).pc = s.pc := rfl
@[simp] theorem State.raise_cond (s : State) (k : ErrorKind) : (s.raise k).cond = s.cond := rfl
@[simp] theorem State.raise_mem (s : State) (k : ErrorKind) : (s.raise k).mem = s.mem := rfl
@[simp] theorem State.raise_runState (s : State) (k : ErrorKind) : (s.raise k).runState = .error ⟨k, s.pc - 1#16, s.ir⟩ := rfl
@[simp] theorem State.raise_ir (s : State) (k : ErrorKind) : (s.raise k).ir = s.ir := rfl
@[simp] theorem State.raise_hold (s : State) (k : ErrorKind) : (s.raise k).hold = s.hold := rfl
@[simp] theorem State.raise_input (s : State) (k : ErrorKind) : (s.raise k).input = s.input := rfl
@[simp] theorem State.raise_output (s : State) (k : ErrorKind) : (s.raise k).output = s.output := rfl
@[simp] theorem State.raise_config (s : State) (k : ErrorKind) : (s.raise k).config = s.config := rfl

/-! ### halt -/

@[simp] theorem State.halt_regs (s : State) : s.halt.regs = s.regs := rfl
@[simp] theorem State.halt_pc (s : State) : s.halt.pc = s.pc := rfl
@[simp] theorem State.halt_cond (s : State) : s.halt.cond = s.cond := rfl
@[simp] theorem State.halt_mem (s : State) : s.halt.mem = s.mem := rfl
@[simp] theorem State.halt_runState (s : State) : s.halt.runState = .halted := rfl
@[simp] theorem State.halt_ir (s : State) : s.halt.ir = s.ir := rfl
@[simp] theorem State.halt_hold (s : State) : s.halt.hold = s.hold := rfl
@[simp] theorem State.halt_input (s : State) : s.halt.input = s.input := rfl
@[simp] theorem State.halt_output (s : State) : s.halt.output = s.output := rfl
@[simp] theorem State.halt_config (s : State) : s.halt.config = s.config := rfl

/-! ### fetch -/

@[simp] theorem State.fetch_regs (s : State) : s.fetch.regs = s.regs := rfl
@[simp] theorem State.fetch_pc (s : State) : s.fetch.pc = s.pc + 1#16 := rfl
@[simp] theorem State.fetch_cond (s : State) : s.fetch.cond = s.cond := rfl
@[simp] theorem State.fetch_mem (s : State) : s.fetch.mem = s.mem := rfl
@[simp] theorem State.fetch_runState (s : State) : s.fetch.runState = s.runState := rfl
@[simp] theorem State.fetch_ir (s : State) : s.fetch.ir = s.mem.read s.pc := rfl
@[simp] theorem State.fetch_hold (s : State) : s.fetch.hold = s.hold := rfl
@[simp] theorem State.fetch_input (s : State) : s.fetch.input = s.input := rfl
@[simp] theorem State.fetch_output (s : State) : s.fetch.output = s.output := rfl
@[simp] theorem State.fetch_config (s : State) : s.fetch.config = s.config := rfl

/-! ### link -/

@[simp] theorem State.link_regs (s : State) : s.link.regs = s.regs.set .r7 s.pc := rfl
@[simp] theorem State.link_pc (s : State) : s.link.pc = s.pc := rfl
@[simp] theorem State.link_cond (s : State) : s.link.cond = s.cond := rfl
@[simp] theorem State.link_mem (s : State) : s.link.mem = s.mem := rfl
@[simp] theorem State.link_runState (s : State) : s.link.runState = s.runState := rfl
@[simp] theorem State.link_ir (s : State) : s.link.ir = s.ir := rfl
@[simp] theorem State.link_hold (s : State) : s.link.hold = s.hold := rfl
@[simp] theorem State.link_input (s : State) : s.link.input = s.input := rfl
@[simp] theorem State.link_output (s : State) : s.link.output = s.output := rfl
@[simp] theorem State.link_config (s : State) : s.link.config = s.config := rfl

/-! ### trapLink: only R7, and only under `TRAP_LINKS_R7` -/

theorem State.trapLink_regs (s : State) :
    s.trapLink.regs = if s.config.trapLinksR7 then s.regs.set .r7 s.pc else s.regs := by
  unfold State.trapLink; split <;> rfl

@[simp] theorem State.trapLink_pc (s : State) : s.trapLink.pc = s.pc := by
  unfold State.trapLink; split <;> rfl
@[simp] theorem State.trapLink_cond (s : State) : s.trapLink.cond = s.cond := by
  unfold State.trapLink; split <;> rfl
@[simp] theorem State.trapLink_mem (s : State) : s.trapLink.mem = s.mem := by
  unfold State.trapLink; split <;> rfl
@[simp] theorem State.trapLink_runState (s : State) : s.trapLink.runState = s.runState := by
  unfold State.trapLink; split <;> rfl
@[simp] theorem State.trapLink_ir (s : State) : s.trapLink.ir = s.ir := by
  unfold State.trapLink; split <;> rfl
@[simp] theorem State.trapLink_hold (s : State) : s.trapLink.hold = s.hold := by
  unfold State.trapLink; split <;> rfl
@[simp] theorem State.trapLink_input (s : State) : s.trapLink.input = s.input := by
  unfold State.trapLink; split <;> rfl
@[simp] theorem State.trapLink_output (s : State) : s.trapLink.output = s.output := by
  unfold State.trapLink; split <;> rfl
@[simp] theorem State.trapLink_config (s : State) : s.trapLink.config = s.config := by
  unfold State.trapLink; split <;> rfl

/-! ### The accessors -/

theorem State.reg_eq (s : State) (r : Reg) : s.reg r = s.regs.get r := rfl

theorem State.readMem_eq (s : State) (a : Word) : s.readMem a = s.mem.read a := rfl

/-- Two states are equal when all ten fields are. -/
theorem State.ext_fields {s t : State} (h1 : s.regs = t.regs) (h2 : s.pc = t.pc) (h3 : s.cond = t.cond) (h4 : s.mem = t.mem)
    (h5 : s.runState = t.runState) (h6 : s.ir = t.ir) (h7 : s.hold = t.hold) (h8 : s.input = t.input)
    (h9 : s.output = t.output) (h10 : s.config = t.config) : s = t := by
  cases s; cases t; simp_all

end Sys2Proof.Machine
end

