-- ==== Sys2Proof/Laws/Memory.lean ====
section
/-!
SUPPORT. The laws of the memory_array (spec 20_memory R36, R37): a read after a write, and the canonical form, which every
memory operation keeps. The read laws hold of every list of cells, canonical or not.
-/

namespace Sys2Proof.Machine

theorem lookupCell_erase_same (k : Nat) (l : List (Nat × Word)) : lookupCell k (eraseCell k l) = Memory.unlisted := by
  induction l with
  | nil => rfl
  | cons c cs ih =>
    simp only [eraseCell]
    split
    · exact ih
    · simp only [lookupCell]
      rw [if_neg ‹_›]; exact ih

theorem lookupCell_erase_other {k j : Nat} (h : j ≠ k) (l : List (Nat × Word)) :
    lookupCell j (eraseCell k l) = lookupCell j l := by
  induction l with
  | nil => rfl
  | cons c cs ih =>
    simp only [eraseCell, lookupCell]
    split
    · rw [ih, if_neg (by omega)]
    · simp only [lookupCell, ih]

theorem lookupCell_insert_same (k : Nat) (v : Word) (l : List (Nat × Word)) (h : ∀ c ∈ l, c.1 ≠ k) :
    lookupCell k (insertCell k v l) = v := by
  induction l with
  | nil => simp [insertCell, lookupCell]
  | cons c cs ih =>
    simp only [insertCell]
    split
    · simp [lookupCell]
    · simp only [lookupCell]
      rw [if_neg (h c (by simp)), ih fun d hd => h d (by simp [hd])]

theorem lookupCell_insert_other {k j : Nat} (hj : j ≠ k) (v : Word) (l : List (Nat × Word)) :
    lookupCell j (insertCell k v l) = lookupCell j l := by
  induction l with
  | nil => simp [insertCell, lookupCell]; omega
  | cons c cs ih =>
    simp only [insertCell]
    split
    · simp only [lookupCell]; rw [if_neg (by simpa using hj.symm)]
    · simp only [lookupCell, ih]

theorem mem_eraseCell {k : Nat} {c : Nat × Word} {l : List (Nat × Word)} (h : c ∈ eraseCell k l) : c ∈ l ∧ c.1 ≠ k := by
  induction l with
  | nil => simp [eraseCell] at h
  | cons d ds ih =>
    simp only [eraseCell] at h
    split at h
    · exact ⟨by simp [(ih h).1], (ih h).2⟩
    · rcases List.mem_cons.mp h with rfl | h
      · exact ⟨by simp, ‹_›⟩
      · exact ⟨by simp [(ih h).1], (ih h).2⟩

theorem mem_insertCell {k : Nat} {v : Word} {c : Nat × Word} {l : List (Nat × Word)} (h : c ∈ insertCell k v l) :
    c = (k, v) ∨ c ∈ l := by
  induction l with
  | nil => simpa [insertCell] using h
  | cons d ds ih =>
    simp only [insertCell] at h
    split at h
    · simpa using h
    · rcases List.mem_cons.mp h with rfl | h
      · simp
      · rcases ih h with h | h
        · exact .inl h
        · exact .inr (by simp [h])

theorem pairwise_eraseCell {k : Nat} {l : List (Nat × Word)} (h : l.Pairwise (fun c d => c.1 < d.1)) :
    (eraseCell k l).Pairwise (fun c d => c.1 < d.1) := by
  induction l with
  | nil => simp [eraseCell]
  | cons c cs ih =>
    obtain ⟨hc, hcs⟩ := List.pairwise_cons.mp h
    simp only [eraseCell]
    split
    · exact ih hcs
    · exact List.pairwise_cons.mpr ⟨fun d hd => hc d (mem_eraseCell hd).1, ih hcs⟩

theorem pairwise_insertCell {k : Nat} {v : Word} {l : List (Nat × Word)} (h : l.Pairwise (fun c d => c.1 < d.1))
    (hk : ∀ c ∈ l, c.1 ≠ k) : (insertCell k v l).Pairwise (fun c d => c.1 < d.1) := by
  induction l with
  | nil => simp [insertCell]
  | cons c cs ih =>
    obtain ⟨hc, hcs⟩ := List.pairwise_cons.mp h
    simp only [insertCell]
    split
    · refine List.pairwise_cons.mpr ⟨fun d hd => ?_, h⟩
      rcases List.mem_cons.mp hd with rfl | hd
      · assumption
      · have := hc d hd; simp only; omega
    · have hck := hk c (by simp)
      refine List.pairwise_cons.mpr ⟨fun d hd => ?_, ih hcs fun d hd => hk d (by simp [hd])⟩
      rcases mem_insertCell hd with rfl | hd
      · simp only; omega
      · exact hc d hd

/-- A read at the written address gives the value written, for every memory (R37). -/
@[simp] theorem Memory.read_write_same (m : Memory) (a v : Word) : (m.write a v).read a = v := by
  unfold Memory.write Memory.read
  split
  · rw [lookupCell_erase_same]; exact (‹v = _›).symm
  · exact lookupCell_insert_same _ _ _ fun c hc => (mem_eraseCell hc).2

/-- A write leaves every other address alone (R37). -/
theorem Memory.read_write_other (m : Memory) {a b : Word} (v : Word) (h : b ≠ a) : (m.write a v).read b = m.read b := by
  have hn : b.toNat ≠ a.toNat := fun e => h (BitVec.eq_of_toNat_eq e)
  unfold Memory.write Memory.read
  split
  · exact lookupCell_erase_other hn _
  · rw [lookupCell_insert_other hn, lookupCell_erase_other hn]

theorem Memory.read_write (m : Memory) (a b v : Word) : (m.write a v).read b = if b = a then v else m.read b := by
  split
  · subst b; simp
  · exact m.read_write_other v ‹_›

@[simp] theorem Memory.read_empty (a : Word) : Memory.empty.read a = 0x0000#16 := rfl

theorem Memory.empty_wf : Memory.empty.wf := by decide

/-- A write keeps the canonical form. -/
theorem Memory.write_wf {m : Memory} (h : m.wf) (a v : Word) : (m.write a v).wf := by
  obtain ⟨hp, hc⟩ := h
  unfold Memory.write
  split
  · exact ⟨pairwise_eraseCell hp, fun c hm => hc c (mem_eraseCell hm).1⟩
  · refine ⟨pairwise_insertCell (pairwise_eraseCell hp) fun c hm => (mem_eraseCell hm).2, fun c hm => ?_⟩
    rcases mem_insertCell hm with rfl | hm
    · exact ⟨a.isLt, ‹_›⟩
    · exact hc c (mem_eraseCell hm).1

/-- A block fits when its last word does not pass the top (70_reset_and_hazards R149). -/
theorem fitsAt_iff (base : Word) (k : Nat) : fitsAt base k = true ↔ k ≤ 65536 - base.toNat := by
  unfold fitsAt addressCount; exact decide_eq_true_iff

/-- The image load changes memory alone (10_state R31). -/
theorem State.load_frame (ws : List Word) (s : State) (base : Word) :
    { s.load base ws with mem := Memory.empty } = { s with mem := Memory.empty } := by
  induction ws generalizing s base with
  | nil => rfl
  | cons w ws ih => exact ih (s.writeMem base w) (base + 1#16)

/-- The image load puts word `i` at `base + i` (R149). -/
theorem State.load_read (ws : List Word) (s : State) (base a : Word) (h : ws.length ≤ 65536) :
    (s.load base ws).readMem a = if (a - base).toNat < ws.length then ws.getD (a - base).toNat 0x0000#16 else s.readMem a := by
  induction ws generalizing s base with
  | nil => rfl
  | cons w ws ih =>
    rw [List.length_cons] at h
    change ((s.writeMem base w).load (base + 1#16) ws).readMem a = _
    rw [ih _ _ (by omega)]
    by_cases e : a = base
    · subst e
      have : (a - (a + 1#16)).toNat = 65535 := by
        rw [show a - (a + 1#16) = 65535#16 by bv_omega]; rfl
      rw [this, if_neg (by omega)]
      simp [State.readMem_eq]
    · have : (a - base).toNat = (a - (base + 1#16)).toNat + 1 := by
        have := e; bv_omega
      rw [this]
      simp only [List.length_cons, Nat.add_lt_add_iff_right, List.getD_cons_succ]
      split
      · rfl
      · simp [State.readMem_eq, Memory.read_write_other _ _ e]

/-- The image load keeps the canonical form. -/
theorem State.load_wf {s : State} (h : s.mem.wf) (base : Word) (ws : List Word) : (s.load base ws).mem.wf := by
  induction ws generalizing s base with
  | nil => exact h
  | cons w ws ih => exact ih (s := s.writeMem base w) (Memory.write_wf h base w) _

theorem State.reset_mem_wf (c : Config) : (State.resetWith c).mem.wf := Memory.empty_wf

end Sys2Proof.Machine
end

