-- ==== Sys2Proof/Laws/Ops.lean ====
section
/-!
SUPPORT. One lemma per shared operation, saying once what it does: registers, COND, sign extension, the string scan, the
input request, the three cases of a step.
-/

namespace Sys2Proof.Machine

/-! ### Registers -/

theorem RegFile.get_set (f : RegFile) (r q : Reg) (v : Word) : (f.set r v).get q = if q = r then v else f.get q := by
  cases r <;> cases q <;> rfl

@[simp] theorem RegFile.get_set_same (f : RegFile) (r : Reg) (v : Word) : (f.set r v).get r = v := by
  rw [RegFile.get_set, if_pos rfl]

theorem RegFile.get_set_other (f : RegFile) {r q : Reg} (v : Word) (h : q ≠ r) : (f.set r v).get q = f.get q := by
  rw [RegFile.get_set, if_neg h]

/-- What the optional link leaves in a register (44_trap R114). -/
theorem State.trapLink_reg (s : State) (q : Reg) :
    s.trapLink.reg q = if s.config.trapLinksR7 ∧ q = .r7 then s.pc else s.reg q := by
  simp only [State.reg_eq, State.trapLink_regs]
  by_cases hl : s.config.trapLinksR7 <;> simp [hl, RegFile.get_set]

/-! ### COND -/

/-- `setcc` by the value's range (41_arith_logic R86). -/
theorem condOf_says (v : Word) : CondSays (condOf v) v := by
  have hbit : bit v 15 = decide (0x8000 ≤ v.toNat) := by
    have hm : v.msb = decide (2 ^ 15 ≤ v.toNat) := BitVec.msb_eq_decide v
    rw [show bit v 15 = v.msb from (BitVec.msb_eq_getLsbD_last v).symm, hm]
    norm_num
  have hz : v = 0x0000#16 ↔ v.toNat = 0 :=
    ⟨fun h => by rw [h]; rfl, fun h => BitVec.eq_of_toNat_eq (by simpa using h)⟩
  refine ⟨fun h => ?_, fun h => ?_, fun h => ?_⟩
  · simp [condOf, hz.mpr h, condZ]
  · have h1 : ¬ v = 0x0000#16 := fun e => by have := hz.mp e; omega
    have h2 : ¬ 0x8000 ≤ v.toNat := by omega
    simp [condOf, h1, hbit, h2, condP]
  · have h1 : ¬ v = 0x0000#16 := fun e => by have := hz.mp e; omega
    simp [condOf, h1, hbit, h, condN]

/-- `setcc` gives one of the three flags, never the reset value (10_state R23). -/
theorem condOf_cases (v : Word) : condOf v = condZ ∨ condOf v = condN ∨ condOf v = condP := by
  unfold condOf; split
  · exact .inl rfl
  · split
    · exact .inr (.inl rfl)
    · exact .inr (.inr rfl)

theorem condOf_legal (v : Word) : condLegal (condOf v) = true := by
  rcases condOf_cases v with h | h | h <;> rw [h] <;> decide

/-! ### The string scan -/

/-- One word of the scan (44_trap R118, R120). -/
theorem scan_succ (emit : Word → List Byte) (m : Memory) (n : Nat) (a : Word) :
    scan emit m (n + 1) a =
      if lowByte (m.read a) = 0#8 then ⟨[], true⟩
      else ⟨emit (m.read a) ++ (scan emit m n (a + 1#16)).bytes, (scan emit m n (a + 1#16)).ended⟩ := rfl

/-- A scan that meets a terminator within its bound outputs what stands before the first one. -/
theorem scan_of_terminator (emit : Word → List Byte) (m : Memory) (n k : Nat) (a : Word) (hk : k < n)
    (hz : lowByte (m.read (a + BitVec.ofNat 16 k)) = 0#8)
    (hb : ∀ j, j < k → lowByte (m.read (a + BitVec.ofNat 16 j)) ≠ 0#8) :
    scan emit m n a = ⟨(List.range k).flatMap fun j => emit (m.read (a + BitVec.ofNat 16 j)), true⟩ := by
  induction n generalizing k a with
  | zero => omega
  | succ n ih =>
    rw [scan_succ]
    cases k with
    | zero => simp only [BitVec.add_zero] at hz; simp [hz]
    | succ k =>
      have shift : ∀ j, a + 1#16 + BitVec.ofNat 16 j = a + BitVec.ofNat 16 (j + 1) := fun j => by
        rw [BitVec.add_assoc, ← BitVec.ofNat_add, Nat.add_comm 1 j]
      have h0 : lowByte (m.read a) ≠ 0#8 := by simpa using hb 0 (by omega)
      rw [if_neg h0, ih k (a + 1#16) (by omega) (by rw [shift]; exact hz)
        fun j hj => by rw [shift]; exact hb (j + 1) (by omega)]
      simp [List.range_succ_eq_map, List.flatMap_map, shift]

/-- A scan of `n` words that meets no terminator outputs all of them and does not end (44_trap R123). -/
theorem scan_no_terminator (emit : Word → List Byte) (m : Memory) (n : Nat) (a : Word)
    (h : ∀ j, j < n → lowByte (m.read (a + BitVec.ofNat 16 j)) ≠ 0#8) :
    scan emit m n a = ⟨(List.range n).flatMap fun j => emit (m.read (a + BitVec.ofNat 16 j)), false⟩ := by
  induction n generalizing a with
  | zero => rfl
  | succ n ih =>
    have shift : ∀ j, a + 1#16 + BitVec.ofNat 16 j = a + BitVec.ofNat 16 (j + 1) := fun j => by
      rw [BitVec.add_assoc, ← BitVec.ofNat_add, Nat.add_comm 1 j]
    have h0 : lowByte (m.read a) ≠ 0#8 := by simpa using h 0 (by omega)
    rw [scan_succ, if_neg h0, ih (a + 1#16) fun j hj => by rw [shift]; exact h (j + 1) (by omega)]
    simp [List.range_succ_eq_map, List.flatMap_map, shift]

/-- What a list of pieces, none empty, joins to is at least as long as the list. -/
theorem length_le_flatMap {α β : Type} (f : α → List β) (hf : ∀ x, 1 ≤ (f x).length) (l : List α) :
    l.length ≤ (l.flatMap f).length := by
  induction l with
  | nil => simp
  | cons x xs ih =>
    have := hf x
    simp only [List.flatMap_cons, List.length_append, List.length_cons]; omega

/-! ### The input request -/

/-- With no answer the step holds (44_trap R115). -/
theorem State.awaitByte_none {s : State} (h : Hold) (f : Byte → State → State) (hi : s.input = []) :
    s.awaitByte h f = s.setHold (some h) := by
  simp [State.awaitByte, hi]

/-- With a byte the routine finishes. -/
theorem State.awaitByte_byte {s : State} {b : Byte} {rest : List InAnswer} (h : Hold) (f : Byte → State → State)
    (hi : s.input = .byte b :: rest) : s.awaitByte h f = f b ((s.setInput rest).setHold none) := by
  simp [State.awaitByte, hi]

/-- With an end of the stream or a failure IOFailure is raised. -/
theorem State.awaitByte_fail {s : State} {a : InAnswer} {rest : List InAnswer} (h : Hold) (f : Byte → State → State)
    (hi : s.input = a :: rest) (ha : a = .endOfStream ∨ a = .failure) :
    s.awaitByte h f = ((s.setInput rest).setHold none).raise .ioFailure := by
  rcases ha with rfl | rfl <;> simp [State.awaitByte, hi]

/-! ### The step -/

/-- In Running with no step in progress a step is the fetch and the handler (40_execution_loop R75). -/
theorem step_ready {s : State} (h : Ready s) : step s = exec s.fetch.latched s.fetch := by
  simp [step, h.1, h.2]

/-- In Running a step in progress goes on. -/
theorem step_held {s : State} {h : Hold} (hr : s.runState = .running) (hh : s.hold = some h) : step s = resumeStep h s := by
  simp [step, hr, hh]

/-- Otherwise a step does nothing (R81). -/
theorem step_ended {s : State} (h : Ended s) : step s = .next s := by
  unfold step
  split
  · exact absurd ‹_› h
  · exact absurd ‹_› h
  · rfl
  · rfl

/-- One more step at the front of a run. -/
theorem stepN_succ (n : Nat) (s : State) :
    stepN (n + 1) s = match step s with | .next t => stepN n t | .fault r => .fault r | .refused r => .refused r := rfl

/-- One more step at the end of a run that got that far. -/
theorem stepN_succ_of_next {n : Nat} {s t : State} (h : stepN n s = .next t) : stepN (n + 1) s = step t := by
  induction n generalizing s with
  | zero =>
    cases h
    rw [stepN_succ]
    cases hs : step t <;> simp [stepN]
  | succ n ih =>
    rw [stepN_succ]
    rw [stepN_succ] at h
    cases hs : step s with
    | next u => rw [hs] at h; exact ih h
    | fault r => rw [hs] at h; cases h
    | refused r => rw [hs] at h; cases h

/-! ### The routines -/

/-- Every instruction of opcode 15 is the optional link and then the routine of some vector (44_trap R114). -/
theorem exec_of_trap {i : Instr} (s : State) (h : i.opcode = .trap) : ∃ v, exec i s = .next (routineOf v s.trapLink) := by
  cases i <;> simp only [Instr.opcode, reduceCtorEq] at h
  · exact ⟨_, rfl⟩
  · exact ⟨TrapRoutine.getc.vector, rfl⟩
  · exact ⟨TrapRoutine.out.vector, rfl⟩
  · exact ⟨TrapRoutine.puts.vector, rfl⟩
  · exact ⟨TrapRoutine.in_.vector, rfl⟩
  · exact ⟨TrapRoutine.putsp.vector, rfl⟩
  · exact ⟨TrapRoutine.halt.vector, rfl⟩

/-- An input request leaves PC, COND, memory, the latch and the parameters alone if what follows it does. -/
theorem State.awaitByte_frame (s : State) (h : Hold) (f : Byte → State → State)
    (hf : ∀ b u, (f b u).pc = u.pc ∧ (f b u).cond = u.cond ∧ (f b u).mem = u.mem ∧ (f b u).ir = u.ir ∧ (f b u).config = u.config) :
    (s.awaitByte h f).pc = s.pc ∧ (s.awaitByte h f).cond = s.cond ∧ (s.awaitByte h f).mem = s.mem ∧
      (s.awaitByte h f).ir = s.ir ∧ (s.awaitByte h f).config = s.config := by
  unfold State.awaitByte
  split
  · simp
  · exact hf _ _
  · simp
  · simp

/-- An input request leaves every register but R0 alone if what follows it does. -/
theorem State.awaitByte_reg (s : State) (h : Hold) (f : Byte → State → State) {r : Reg} (hf : ∀ b u, (f b u).reg r = u.reg r) :
    (s.awaitByte h f).reg r = s.reg r := by
  unfold State.awaitByte
  split
  · rfl
  · exact hf _ _
  · rfl
  · rfl

/-- A routine writes no register but R0 (44_trap R116, R119). -/
theorem routineOf_reg (v : BitVec 8) (s : State) {r : Reg} (hr : r ≠ .r0) : (routineOf v s).reg r = s.reg r := by
  unfold routineOf
  split
  · exact s.awaitByte_reg _ _ fun b u => by simp [finishGetc, State.reg_eq, RegFile.get_set, hr]
  · rfl
  · rfl
  · exact (s.outBytes s.config.inPrompt).awaitByte_reg .in_ finishIn fun b u => by simp [finishIn, State.reg_eq, RegFile.get_set, hr]
  · rfl
  · rfl
  · rfl

/-- A routine leaves PC, COND, memory, the latch and the parameters alone (44_trap R116 to R122). -/
theorem routineOf_frame (v : BitVec 8) (s : State) :
    (routineOf v s).pc = s.pc ∧ (routineOf v s).cond = s.cond ∧ (routineOf v s).mem = s.mem ∧ (routineOf v s).ir = s.ir ∧
      (routineOf v s).config = s.config := by
  unfold routineOf
  split
  · exact s.awaitByte_frame _ _ fun b u => by simp [finishGetc]
  · simp [routineOut]
  · simp [routinePuts, State.outputString]
  · simpa [routineIn, State.awaitIn] using (s.outBytes s.config.inPrompt).awaitByte_frame .in_ finishIn fun b u => by simp [finishIn]
  · simp [routinePutsp, State.outputString]
  · simp [routineHalt]
  · simp

end Sys2Proof.Machine
end

