-- ==== Sys2Proof/Tests/Slice0.lean ====
section
/-!
SUPPORT. Tests. Words are written out field by field from spec 30_encoding R52, R60, R64; expected results are those of
95_test_vectors (the vector is named in each docstring), never the model's own. Then, for every obligation with hypotheses, a
witness: a concrete state and operands that meet them.
-/

namespace Sys2Proof.Tests

open Sys2Proof Sys2Proof.Machine

/-! ### Well-formedness -/

/-- JMP's constructor with R7 is refused (RET's word), with R6 accepted. -/
theorem test_wf_jmp : Instr.wf (.jmp 0b000#3 .r7 0b000000#6) = false ∧ Instr.wf (.jmp 0b111#3 .r6 0b111111#6) = true := by decide

/-- TRAP's constructor with a vector of 30_encoding R64 is refused, at both ends of the range; its neighbours are accepted. -/
theorem test_wf_trap : Instr.wf (.trap 0#4 0x20#8) = false ∧ Instr.wf (.trap 0#4 0x25#8) = false ∧
    Instr.wf (.trap 0#4 0x1F#8) = true ∧ Instr.wf (.trap 0#4 0x26#8) = true := by decide

/-! ### Decoding: one word or more per constructor, bit by bit -/

theorem test_decode_br : decode 0b0000_1_0_1_100000000#16 = .br true false true 0b100000000#9 := by decide
theorem test_decode_addReg : decode 0b0001_001_010_0_11_011#16 = .addReg .r1 .r2 0b11#2 .r3 := by decide
theorem test_decode_addImm : decode 0b0001_001_010_1_11111#16 = .addImm .r1 .r2 0b11111#5 := by decide
theorem test_decode_ld : decode 0b0010_110_011111111#16 = .ld .r6 0b011111111#9 := by decide
theorem test_decode_st : decode 0b0011_111_000000001#16 = .st .r7 1#9 := by decide
theorem test_decode_jsr : decode 0b0100_1_10000000001#16 = .jsr 0b10000000001#11 := by decide
theorem test_decode_jsrr : decode 0b0100_0_11_010_000000#16 = .jsrr 0b11#2 .r2 0b000000#6 := by decide
theorem test_decode_andReg : decode 0b0101_100_101_0_00_110#16 = .andReg .r4 .r5 0b00#2 .r6 := by decide
theorem test_decode_andImm : decode 0b0101_000_001_1_10000#16 = .andImm .r0 .r1 0b10000#5 := by decide
theorem test_decode_ldr : decode 0b0110_000_111_100000#16 = .ldr .r0 .r7 0b100000#6 := by decide
theorem test_decode_str : decode 0b0111_010_110_111111#16 = .str .r2 .r6 0b111111#6 := by decide
theorem test_decode_reserved8 : decode 0b1000_000000000001#16 = .reserved8 1#12 := by decide
theorem test_decode_not : decode 0b1001_001_010_000000#16 = .not .r1 .r2 0b000000#6 := by decide
theorem test_decode_ldi : decode 0b1010_001_000000001#16 = .ldi .r1 1#9 := by decide
theorem test_decode_sti : decode 0b1011_101_100000000#16 = .sti .r5 0b100000000#9 := by decide
theorem test_decode_jmp : decode 0b1100_111_010_111111#16 = .jmp 0b111#3 .r2 0b111111#6 := by decide
theorem test_decode_ret : decode 0b1100_000_111_000000#16 = .ret 0b000#3 0b000000#6 := by decide
theorem test_decode_reserved13 : decode 0b1101_000100100011#16 = .reserved13 0x123#12 := by decide
theorem test_decode_lea : decode 0b1110_011_111111111#16 = .lea .r3 0b111111111#9 := by decide
theorem test_decode_trap : decode 0b1111_0000_00100110#16 = .trap 0#4 0x26#8 ∧ decode 0b1111_0001_00011111#16 = .trap 1#4 0x1F#8 := by decide
theorem test_decode_getc : decode 0b1111_0000_00100000#16 = .getc 0#4 := by decide
theorem test_decode_out : decode 0b1111_0000_00100001#16 = .out 0#4 := by decide
theorem test_decode_puts : decode 0b1111_0000_00100010#16 = .puts 0#4 := by decide
theorem test_decode_in : decode 0b1111_0000_00100011#16 = .in_ 0#4 := by decide
theorem test_decode_putsp : decode 0b1111_0000_00100100#16 = .putsp 0#4 := by decide
theorem test_decode_halt : decode 0b1111_1111_00100101#16 = .halt 0b1111#4 := by decide

/-- A byte sequence: the high byte first, the rest left over, a lone byte refused by name (20_memory R40). -/
theorem test_decodeBytes : decodeBytes [0xF0#8, 0x25#8, 0xAA#8] = .ok (.halt 0#4, [0xAA#8]) ∧
    decodeBytes [0xF0#8] = .error .truncated ∧ decodeBytes [] = .error .truncated := ⟨rfl, rfl, rfl⟩

theorem test_decodeTableWord : decodeTableWord 16 0xF025 = some (.halt 0#4) ∧ decodeTableWord 16 0x12BF = some (.addImm .r1 .r2 0b11111#5) := by
  decide

/-- Canonical words (30_encoding R52, R63, R68; 95 E9): RET 0xC1C0, NOT with ones, NOP 0x0000, 0x129B's canonical 0x1283. -/
theorem test_canonical : encode (Instr.canonical (.ret 5#3 9#6)) = 0xC1C0#16 ∧ encode (Instr.canonical (.not .r1 .r2 0#6)) = 0x92BF#16 ∧
    encode Instr.nop = 0x0000#16 ∧ encode (decode 0x129B#16).canonical = 0x1283#16 ∧ encode (Instr.brAlways 5#9) = 0x0E05#16 := by
  decide

/-- 95 E8. -/
theorem test_sext : sext 0x8000#16 = 0x8000#16 ∧ sext 0b10000#5 = 0xFFF0#16 ∧ sext 0b01111#5 = 0x000F#16 ∧ sext 0b100000#6 = 0xFFE0#16 ∧
    sext 0x100#9 = 0xFF00#16 ∧ sext 0x0FF#9 = 0x00FF#16 ∧ sext 0x400#11 = 0xFC00#16 ∧ sext 0x3FF#11 = 0x03FF#16 := by decide

/-- 95 section 2.2. -/
theorem test_condOf : condOf 0x0000#16 = 0x0002#16 ∧ condOf 0x0001#16 = 0x0001#16 ∧ condOf 0x7FFF#16 = 0x0001#16 ∧
    condOf 0x8000#16 = 0x0004#16 ∧ condOf 0xFFFF#16 = 0x0004#16 := by decide

/-- 95 P1 and P2: the offsets written in their programs; and an offset that does not fit its field. -/
theorem test_assembleOffset : assembleOffset 9 0x3002#16 0x3004#16 = some 0x1FD#9 ∧ assembleOffset 9 0x3009#16 0x3000#16 = some 8#9 ∧
    assembleOffset 9 0x3101#16 0x3000#16 = none := by decide

/-! ### One step -/

/-- The start state of 95: reset, with one word where PC points. -/
def start (pc w : Word) : State := (State.reset.setPc pc).writeMem pc w

/-- The state a step gives (the same state where it gives none, which no step does). -/
def after (s : State) : State :=
  match step s with
  | .next t => t
  | .fault _ => s
  | .refused _ => s

/-- A register, COND and PC of a state. -/
def view (r : Reg) (s : State) : Word × Word × Word := (s.reg r, s.cond, s.pc)

/-- V1. -/
theorem test_addReg : view .r0 (after (((start 0x3000#16 0x1042#16).setReg .r1 0x7FFF#16).setReg .r2 1#16)) = (0x8000#16, 0x0004#16, 0x3001#16) := by
  decide
/-- V6: the destination is both sources. -/
theorem test_addReg_same : view .r1 (after ((start 0x3000#16 0x1241#16).setReg .r1 0x4000#16)) = (0x8000#16, 0x0004#16, 0x3001#16) := by decide
/-- E1. -/
theorem test_addImm : view .r1 (after ((start 0x3000#16 0x12BF#16).setReg .r2 2#16)) = (1#16, 0x0001#16, 0x3001#16) := by decide
/-- V52: PC wraps. -/
theorem test_addImm_pc : view .r0 (after (start 0xFFFF#16 0x1021#16)) = (1#16, 0x0001#16, 0x0000#16) := by decide
/-- V9. -/
theorem test_andReg : view .r0 (after (((start 0x3000#16 0x5042#16).setReg .r1 0xF0F0#16).setReg .r2 0x0F0F#16)) = (0#16, 0x0002#16, 0x3001#16) := by
  decide
/-- V8. -/
theorem test_andImm : view .r0 (after ((start 0x3000#16 0x507F#16).setReg .r1 0x8123#16)) = (0x8123#16, 0x0004#16, 0x3001#16) := by decide
/-- V12. -/
theorem test_not : view .r1 (after ((start 0x3000#16 0x9280#16).setReg .r2 0x8000#16)) = (0x7FFF#16, 0x0001#16, 0x3001#16) := by decide
/-- V15: the address wraps. -/
theorem test_ld : view .r1 (after ((start 0x0000#16 0x23FE#16).setReg .r1 0x1111#16)) = (0#16, 0x0002#16, 0x0001#16) := by decide
/-- V14: the most positive offset. -/
theorem test_ld_far : view .r0 (after ((start 0x3000#16 0x20FF#16).writeMem 0x3100#16 0x55AA#16)) = (0x55AA#16, 0x0001#16, 0x3001#16) := by decide
/-- E3, the full step. -/
theorem test_ldi : view .r1 (after (((start 0x2FFF#16 0xA201#16).writeMem 0x3001#16 0x3002#16).writeMem 0x3002#16 10#16)) =
    (10#16, 0x0001#16, 0x3000#16) := by decide
/-- V18: the destination is the base. -/
theorem test_ldr : view .r1 (after (((start 0x3000#16 0x625F#16).setReg .r1 0x4000#16).writeMem 0x401F#16 0x8000#16)) =
    (0x8000#16, 0x0004#16, 0x3001#16) := by decide
/-- V21. -/
theorem test_lea : view .r0 (after (start 0x7FFF#16 0xE000#16)) = (0x8000#16, 0x0004#16, 0x8000#16) := by decide
/-- V23, with COND = P kept. -/
theorem test_st : (after (((start 0x3000#16 0x3000#16).setReg .r0 0xBEEF#16).setCond 1#16)).readMem 0x3001#16 = 0xBEEF#16 ∧
    (after (((start 0x3000#16 0x3000#16).setReg .r0 0xBEEF#16).setCond 1#16)).cond = 1#16 := by decide
/-- V24: the store overwrites its own pointer. -/
theorem test_sti : (after (((start 0x3000#16 0xB200#16).setReg .r1 0x1234#16).writeMem 0x3001#16 0x3001#16)).readMem 0x3001#16 = 0x1234#16 := by
  decide
/-- V26: the address wraps. -/
theorem test_str : (after (((start 0x3000#16 0x75BF#16).setReg .r2 0xAB#16))).readMem 0xFFFF#16 = 0xAB#16 := by decide
/-- V27, V28, V29. -/
theorem test_br : (after (start 0x3000#16 0x0E05#16)).pc = 0x3001#16 ∧ (after ((start 0x3000#16 0x0805#16).setCond 4#16)).pc = 0x3006#16 ∧
    (after ((start 0x3000#16 0x0805#16).setCond 1#16)).pc = 0x3001#16 := by decide
/-- V30, V32, V33. -/
theorem test_br_edges : (after ((start 0x3000#16 0x07FF#16).setCond 2#16)).pc = 0x3000#16 ∧ (after ((start 0xFFFF#16 0x0FFF#16).setCond 2#16)).pc = 0xFFFF#16 ∧
    (after ((start 0x3000#16 0x0000#16).setCond 7#16)).pc = 0x3001#16 := by decide
/-- V35. -/
theorem test_jmp : (after ((start 0x3000#16 0xCEBF#16).setReg .r2 0x1234#16)).pc = 0x1234#16 := by decide
/-- V59. -/
theorem test_ret : (after ((start 0x3000#16 0xC1C0#16).setReg .r7 0x4000#16)).pc = 0x4000#16 := by decide
/-- V36. -/
theorem test_jsr : view .r7 (after (start 0x3000#16 0x4C00#16)) = (0x3001#16, 0#16, 0x2C01#16) := by decide
/-- V38: BaseR = R7 is read after the link. -/
theorem test_jsrr_r7 : view .r7 (after ((start 0x3000#16 0x41C0#16).setReg .r7 0x6000#16)) = (0x3001#16, 0#16, 0x3001#16) := by decide
/-- V39. -/
theorem test_jsrr : view .r7 (after (((start 0x3000#16 0x4080#16).setReg .r2 0x5000#16).setCond 4#16)) = (0x3001#16, 4#16, 0x5000#16) := by decide
/-- E7. -/
theorem test_reserved8 : (after (start 0x3000#16 0x8000#16)).runState = .error ⟨.invalidOpcode, 0x3000#16, 0x8000#16⟩ ∧
    (after (start 0x3000#16 0x8000#16)).pc = 0x3001#16 := by decide
/-- V53, V55. -/
theorem test_reserved13 : (after (start 0x3000#16 0xD123#16)).runState = .error ⟨.invalidOpcode, 0x3000#16, 0xD123#16⟩ ∧
    after (after (start 0x3000#16 0xD123#16)) = after (start 0x3000#16 0xD123#16) := by decide
/-- The parameter `TRAP_LINKS_R7` true. -/
def linking (s : State) : State := { s with config := { s.config with trapLinksR7 := true } }
/-- V49. -/
theorem test_trap : (after (start 0x3000#16 0xF026#16)).runState = .error ⟨.invalidTrapVector, 0x3000#16, 0xF026#16⟩ ∧
    (after (start 0x3000#16 0xF026#16)).reg .r7 = 0#16 := by decide
/-- V63. -/
theorem test_trap_link : (after (linking (start 0x3000#16 0xF026#16))).reg .r7 = 0x3001#16 := by decide
/-- V40: the answer's byte, no echo; and the answer is taken. -/
theorem test_getc : view .r0 (after ((start 0x3000#16 0xF020#16).answer (.byte 0xFF#8))) = (0x00FF#16, 0#16, 0x3001#16) ∧
    (after ((start 0x3000#16 0xF020#16).answer (.byte 0xFF#8))).output = [] := by decide
/-- V41. -/
theorem test_getc_end : (after ((start 0x3000#16 0xF020#16).answer .endOfStream)).runState = .error ⟨.ioFailure, 0x3000#16, 0xF020#16⟩ := by decide
/-- V42, V51. -/
theorem test_out : (after ((start 0x3000#16 0xF021#16).setReg .r0 0x0141#16)).output = [0x41#8] ∧
    (after (linking ((start 0x3000#16 0xF021#16).setReg .r0 0x41#16))).reg .r7 = 0x3001#16 := by decide
/-- V44: the scan wraps. -/
theorem test_puts : (after ((((start 0x3000#16 0xF022#16).setReg .r0 0xFFFF#16).writeMem 0xFFFF#16 0x41#16).writeMem 0#16 0x42#16)).output =
    [0x41#8, 0x42#8] := by decide
/-- V43: an empty string. -/
theorem test_puts_empty : (after (((start 0x3000#16 0xF022#16).setReg .r0 0x4100#16).writeMem 0x4100#16 0x4100#16)).output = [] := by decide
/-- The parameter `IN_PROMPT` 3E 20. -/
def prompting (s : State) : State := { s with config := { s.config with inPrompt := [0x3E#8, 0x20#8] } }
/-- V61. -/
theorem test_in : (after ((prompting (start 0x3000#16 0xF023#16)).answer (.byte 0x0A#8))).output = [0x3E#8, 0x20#8, 0x0A#8] ∧
    (after ((prompting (start 0x3000#16 0xF023#16)).answer (.byte 0x0A#8))).reg .r0 = 0x0A#16 := by decide
/-- V47: the prompt stays output. -/
theorem test_in_end : (after ((prompting ((start 0x3000#16 0xF023#16).setReg .r0 0x1234#16)).answer .endOfStream)).output = [0x3E#8, 0x20#8] ∧
    (after ((prompting ((start 0x3000#16 0xF023#16).setReg .r0 0x1234#16)).answer .endOfStream)).reg .r0 = 0x1234#16 := by decide
/-- V45. -/
theorem test_putsp : (after (((((start 0x3000#16 0xF024#16).setReg .r0 0x5000#16).writeMem 0x5000#16 0x4241#16).writeMem 0x5001#16 0x43#16).writeMem
    0x5002#16 0x4400#16)).output = [0x41#8, 0x42#8, 0x43#8] := by decide
/-- V48, V54. -/
theorem test_halt : (after (start 0x3000#16 0xF025#16)).runState = .halted ∧ (after (start 0x3000#16 0xF025#16)).pc = 0x3001#16 ∧
    after (after (start 0x3000#16 0xF025#16)) = after (start 0x3000#16 0xF025#16) := by decide

/-- 44_trap R115: with no answer the step holds and asks; the answer lets it end. -/
theorem test_wait : (after (start 0x3000#16 0xF020#16)).inReq = true ∧ (after (start 0x3000#16 0xF020#16)).pc = 0x3001#16 ∧
    (after ((after (start 0x3000#16 0xF020#16)).answer (.byte 0x61#8))).reg .r0 = 0x61#16 := by decide

/-- `withFetchWord` from reset. -/
theorem test_withFetchWord : (after (State.reset.withFetchWord 16 0xF025)).runState = .halted := by decide

/-- `run` under fuel: HALT at once, and the NOPs of empty memory, which spend any fuel (95 V48, V56). -/
theorem test_run : run 1 (start 0x3000#16 0xF025#16) = some .halted ∧ run 3 State.reset = none := by decide

/-! ### Codes and the loader -/

/-- 92 D15. -/
theorem test_codes : RunState.running.code = 0 ∧ RunState.halted.code = 1 ∧ ErrorKind.invalidOpcode.code = 1 ∧ ErrorKind.ioFailure.code = 2 ∧
    ErrorKind.invalidTrapVector.code = 3 ∧ LoaderError.malformedImage.code = 4 := by decide

/-- V67. -/
theorem test_boot : boot Config.spec [0x12#8, 0x34#8, 0xF0#8, 0x25#8] =
    .ok ((State.reset.writeMem 0x3000#16 0x1234#16).writeMem 0x3001#16 0xF025#16) := rfl

/-- V68. -/
theorem test_boot_odd : boot Config.spec [0x12#8, 0x34#8, 0xF0#8] = .error .malformedImage := rfl

/-- V69. -/
theorem test_boot_empty : boot Config.spec [] = .ok State.reset := rfl

/-- 70_reset R151: the first word is the load address; an image without one is malformed (log entry 20). -/
theorem test_boot_origin : boot { Config.spec with loaderOriginMode := .originWord } [0x40#8, 0x00#8, 0xF0#8, 0x25#8] =
      .ok ((State.resetWith { Config.spec with loaderOriginMode := .originWord }).writeMem 0x4000#16 0xF025#16) ∧
    boot { Config.spec with loaderOriginMode := .originWord } [] = .error .malformedImage := ⟨rfl, rfl⟩

/-! ### Witnesses: for each obligation with hypotheses, states and operands that meet them -/

/-- A running state for the witnesses: GETC to run, an answer there, R0 and COND set. -/
def sample : State := (((start 0x3000#16 0xF020#16).setReg .r0 0x5000#16).setCond 1#16).answer (.byte 0x61#8)

theorem witness_EncodedInstructionsDecodeBack : Instr.wf (.jmp 0b101#3 .r6 0b010101#6) = true ∧ Instr.wf (.trap 0xF#4 0x26#8) = true ∧
    Instr.wf (.br true false true 0x1FF#9) = true := by decide

/-- Words that differ in all the don't-care bits of ADD, NOT, JMP, JSRR and TRAP. -/
theorem witness_DontCareBitsAreIgnored :
    (0x1283#16 ^^^ 0x129B#16) &&& ~~~(dontCareMask (decode 0x1283#16)) = 0#16 ∧
    (0x92BF#16 ^^^ 0x9280#16) &&& ~~~(dontCareMask (decode 0x92BF#16)) = 0#16 ∧
    (0xC080#16 ^^^ 0xCEBF#16) &&& ~~~(dontCareMask (decode 0xC080#16)) = 0#16 ∧
    (0x4080#16 ^^^ 0x46BF#16) &&& ~~~(dontCareMask (decode 0x4080#16)) = 0#16 ∧
    (0xF025#16 ^^^ 0xFF25#16) &&& ~~~(dontCareMask (decode 0xF025#16)) = 0#16 := by decide

/-- Both signs, at the widths 1, 5 and 16. -/
theorem witness_SignExtensionKeepsTheSignedValue : (0#1).getLsbD 0 = false ∧ (1#1).getLsbD 0 = true ∧ (0b01111#5).getLsbD 4 = false ∧
    (0b10000#5).getLsbD 4 = true ∧ (0x8000#16).getLsbD 15 = true ∧ (5 ≤ 15 ∧ 15 < 16) := by decide

theorem witness_InvariantKeptByEveryStep : Inv sample ∧ step sample = .next (after sample) := ⟨by decide, rfl⟩

/-- The invariant's other cases: a held input wait, an end by HALT, an error. -/
theorem witness_InvariantKeptByEveryStep_ends : Inv (after (start 0x3000#16 0xF020#16)) ∧ Inv (after (start 0x3000#16 0xF025#16)) ∧
    Inv (after (start 0x3000#16 0x8000#16)) := by decide

theorem witness_CondKeepsAFlagOnceWritten : sample.cond ∈ [0x0001#16, 0x0002#16, 0x0004#16] ∧ step sample = .next (after sample) := ⟨by decide, rfl⟩

theorem witness_StepRunsTheDecodedInstruction : Ready sample ∧ decode (sample.readMem sample.pc) = .getc 0#4 ∧ Instr.wf (.getc 0#4) = true := by
  decide

theorem witness_StoppedMachineStays : (after (start 0x3000#16 0xF025#16)).runState ≠ .running ∧ (after (start 0x3000#16 0x8000#16)).runState ≠ .running := by
  decide

theorem witness_HaltedOnlyByHalt : (start 0x3000#16 0xF025#16).runState = .running ∧
    step (start 0x3000#16 0xF025#16) = .next (after (start 0x3000#16 0xF025#16)) ∧ (after (start 0x3000#16 0xF025#16)).runState = .halted :=
  ⟨rfl, rfl, rfl⟩

/-- One state for each kind, and for each answer that raises IOFailure. -/
theorem witness_ErrorsHaveTheirCauseAndRecord :
    (Ready (start 0x3000#16 0x8FFF#16) ∧ (after (start 0x3000#16 0x8FFF#16)).runState = .error ⟨.invalidOpcode, 0x3000#16, 0x8FFF#16⟩) ∧
    (Ready (start 0xFFFF#16 0xF0FF#16) ∧ (after (start 0xFFFF#16 0xF0FF#16)).runState = .error ⟨.invalidTrapVector, 0xFFFF#16, 0xF0FF#16⟩) ∧
    (Ready ((start 0x3000#16 0xF020#16).answer .failure) ∧
      (after ((start 0x3000#16 0xF020#16).answer .failure)).runState = .error ⟨.ioFailure, 0x3000#16, 0xF020#16⟩) ∧
    (Ready ((start 0x3000#16 0xF023#16).answer .endOfStream) ∧
      (after ((start 0x3000#16 0xF023#16).answer .endOfStream)).runState = .error ⟨.ioFailure, 0x3000#16, 0xF023#16⟩) := by decide

/-- An instruction that writes no PC, a BR that is not taken, a step that raises an error. -/
theorem witness_OnlyControlTransfersReplaceTheIncrementedPc :
    (Ready sample ∧ writesPc (decode (sample.readMem sample.pc)) = false ∧ step sample = .next (after sample)) ∧
    (Ready (start 0x3000#16 0x0E05#16) ∧ decode ((start 0x3000#16 0x0E05#16).readMem 0x3000#16) = .br true true true 5#9 ∧
      branchTaken true true true (start 0x3000#16 0x0E05#16).cond = false) ∧
    (Ready (start 0x3000#16 0xD123#16) ∧ (after (start 0x3000#16 0xD123#16)).runState = .error ⟨.invalidOpcode, 0x3000#16, 0xD123#16⟩) :=
  ⟨⟨by decide, by decide, rfl⟩, by decide, by decide⟩

theorem witness_RegistersWrittenOnlyByTheirWriters : exec (.addImm .r1 .r2 1#5) sample = .next (sample.writeResult .r1 1#16) ∧
    Reg.r2 ∉ writtenRegs sample.config (.addImm .r1 .r2 1#5) := ⟨rfl, by decide⟩

/-- An instruction that writes COND and one that does not. -/
theorem witness_CondWrittenOnlyByFlagWriters : (exec (.addImm .r1 .r2 1#5) sample = .next (sample.writeResult .r1 1#16) ∧
      flagWriter (.addImm .r1 .r2 1#5) = some .r1) ∧
    (exec (.st .r0 0#9) sample = .next (sample.writeMem 0x3000#16 0x5000#16) ∧ flagWriter (.st .r0 0#9) = none) :=
  ⟨⟨rfl, rfl⟩, rfl, rfl⟩

theorem witness_OnlyBrReadsCond : isBr (.lea .r0 0#9) = false ∧ isBr (.jsr 0#11) = false ∧ isBr (.br true true true 1#9) = true ∧
    exec (.br true true true 1#9) sample = .next (sample.setPc 0x3001#16) := ⟨rfl, rfl, rfl, rfl⟩

/-- A store, at an address it does not store to, and an instruction that stores nothing. -/
theorem witness_MemoryWrittenOnlyByStores : (exec (.st .r0 0#9) sample = .next (sample.writeMem 0x3000#16 0x5000#16) ∧
      storeAddress sample (.st .r0 0#9) ≠ some 0x3001#16) ∧
    (exec (.addImm .r1 .r2 1#5) sample = .next (sample.writeResult .r1 1#16) ∧ storeAddress sample (.addImm .r1 .r2 1#5) ≠ some 0x3000#16) :=
  ⟨⟨rfl, by decide⟩, rfl, by decide⟩

theorem witness_NonTrapHandlersArePure : isTrap (.ldi .r0 0#9) = false ∧ isTrap (.reserved8 0#12) = false := by decide

theorem witness_ConsoleChannelsKeepTheirOrder : step sample = .next (after sample) ∧ sample.input = .byte 0x61#8 :: (after sample).input := ⟨rfl, rfl⟩

/-- ST (95 V58), STI and STR to the address after them. -/
theorem witness_StoredWordIsTheNextFetched :
    (Ready (start 0x3000#16 0x3E00#16) ∧ decode ((start 0x3000#16 0x3E00#16).readMem 0x3000#16) = .st .r7 0#9 ∧
      pcRel9 (start 0x3000#16 0x3E00#16).fetch 0#9 = 0x3000#16 + 1#16) ∧
    (Ready ((start 0x3000#16 0xBE01#16).writeMem 0x3002#16 0x3001#16) ∧
      decode (((start 0x3000#16 0xBE01#16).writeMem 0x3002#16 0x3001#16).readMem 0x3000#16) = .sti .r7 1#9 ∧
      indirect9 ((start 0x3000#16 0xBE01#16).writeMem 0x3002#16 0x3001#16).fetch 1#9 = 0x3000#16 + 1#16) ∧
    (Ready ((start 0x3000#16 0x7E80#16).setReg .r2 0x3001#16) ∧
      decode (((start 0x3000#16 0x7E80#16).setReg .r2 0x3001#16).readMem 0x3000#16) = .str .r7 .r2 0#6 ∧
      baseOffset6 ((start 0x3000#16 0x7E80#16).setReg .r2 0x3001#16).fetch .r2 0#6 = 0x3000#16 + 1#16) := by decide

theorem witness_MemoriesThatReadAlikeAreEqual : sample.mem.wf ∧ (sample.mem.write 0xFFFF#16 0#16).wf ∧
    ∀ a, sample.mem.read a = (sample.mem.write 0xFFFF#16 0#16).read a :=
  ⟨by decide, by decide, fun a => by
    rw [Memory.read_write]; split
    · subst a; rfl
    · rfl⟩

/-- The largest image that fits above 0x3000, one word more, an odd one; and the one word that fits above 0xFFFF. -/
theorem witness_BootPlacesTheImage : Config.spec.loaderOriginMode = .fixedStart ∧
    ((List.replicate 106496 0xFF#8).length % 2 = 0 ∧ (List.replicate 106496 0xFF#8).length / 2 ≤ 65536 - Config.spec.pcStart.toNat) ∧
    65536 - Config.spec.pcStart.toNat < (List.replicate 106498 0xFF#8).length / 2 ∧ [0x12#8, 0x34#8, 0xF0#8].length % 2 = 1 ∧
    (0 < [0x12#8, 0x34#8].length / 2 ∧ [0x12#8, 0x34#8].length / 2 ≤ 65536 - (0xFFFF#16).toNat) ∧
    [0x12#8, 0x34#8].length / 2 ≤ (0x0000#16 - 0xFFFF#16).toNat := by
  simp only [List.length_replicate]; decide

/-- One word at 0xFFFF, the last address. -/
theorem witness_BootHonoursTheOriginWord : (⟨0x3000#16, false, [], .originWord⟩ : Config).loaderOriginMode = .originWord ∧
    [0xF0#8, 0x25#8].length % 2 = 0 ∧ [0xF0#8, 0x25#8].length / 2 ≤ 65536 - (wordOfBytes 0xFF#8 0xFF#8).toNat ∧ 0 < [0xF0#8, 0x25#8].length / 2 ∧
    [0xF0#8, 0x25#8].length / 2 ≤ (0x0000#16 - wordOfBytes 0xFF#8 0xFF#8).toNat := by decide

/-- The premise of `RowDecodes` in the statements of arithmetic and data movement: the lowest and the highest word of each row. -/
theorem witness_RowDecodes_arith_data :
    (0x1000#16 &&& 0xF020#16 = 0x1000#16 ∧ 0x1FDF#16 &&& 0xF020#16 = 0x1000#16) ∧
    (0x1020#16 &&& 0xF020#16 = 0x1020#16 ∧ 0x1FFF#16 &&& 0xF020#16 = 0x1020#16) ∧
    (0x5000#16 &&& 0xF020#16 = 0x5000#16 ∧ 0x5FDF#16 &&& 0xF020#16 = 0x5000#16) ∧
    (0x5020#16 &&& 0xF020#16 = 0x5020#16 ∧ 0x5FFF#16 &&& 0xF020#16 = 0x5020#16) ∧
    (0x9000#16 &&& 0xF000#16 = 0x9000#16 ∧ 0x9FFF#16 &&& 0xF000#16 = 0x9000#16) ∧
    (0x2000#16 &&& 0xF000#16 = 0x2000#16 ∧ 0x2FFF#16 &&& 0xF000#16 = 0x2000#16) ∧
    (0xA000#16 &&& 0xF000#16 = 0xA000#16 ∧ 0xAFFF#16 &&& 0xF000#16 = 0xA000#16) ∧
    (0x6000#16 &&& 0xF000#16 = 0x6000#16 ∧ 0x6FFF#16 &&& 0xF000#16 = 0x6000#16) ∧
    (0xE000#16 &&& 0xF000#16 = 0xE000#16 ∧ 0xEFFF#16 &&& 0xF000#16 = 0xE000#16) ∧
    (0x3000#16 &&& 0xF000#16 = 0x3000#16 ∧ 0x3FFF#16 &&& 0xF000#16 = 0x3000#16) ∧
    (0xB000#16 &&& 0xF000#16 = 0xB000#16 ∧ 0xBFFF#16 &&& 0xF000#16 = 0xB000#16) ∧
    (0x7000#16 &&& 0xF000#16 = 0x7000#16 ∧ 0x7FFF#16 &&& 0xF000#16 = 0x7000#16) := by decide

/-- The same for control transfer, the reserved opcodes and the trap routines. -/
theorem witness_RowDecodes_control_trap :
    (0x0000#16 &&& 0xF000#16 = 0x0000#16 ∧ 0x0FFF#16 &&& 0xF000#16 = 0x0000#16) ∧
    (0xC000#16 &&& 0xF000#16 = 0xC000#16 ∧ 0xCFFF#16 &&& 0xF000#16 = 0xC000#16) ∧
    (0xC1C0#16 &&& 0xF1C0#16 = 0xC1C0#16 ∧ 0xCFFF#16 &&& 0xF1C0#16 = 0xC1C0#16) ∧
    (0x4800#16 &&& 0xF800#16 = 0x4800#16 ∧ 0x4FFF#16 &&& 0xF800#16 = 0x4800#16) ∧
    (0x4000#16 &&& 0xF800#16 = 0x4000#16 ∧ 0x47FF#16 &&& 0xF800#16 = 0x4000#16) ∧
    (0x8000#16 &&& 0xF000#16 = 0x8000#16 ∧ 0x8FFF#16 &&& 0xF000#16 = 0x8000#16) ∧
    (0xD000#16 &&& 0xF000#16 = 0xD000#16 ∧ 0xDFFF#16 &&& 0xF000#16 = 0xD000#16) ∧
    (0xF020#16 &&& 0xF0FF#16 = 0xF020#16 ∧ 0xFF20#16 &&& 0xF0FF#16 = 0xF020#16) ∧
    (0xF021#16 &&& 0xF0FF#16 = 0xF021#16 ∧ 0xFF21#16 &&& 0xF0FF#16 = 0xF021#16) ∧
    (0xF022#16 &&& 0xF0FF#16 = 0xF022#16 ∧ 0xFF22#16 &&& 0xF0FF#16 = 0xF022#16) ∧
    (0xF023#16 &&& 0xF0FF#16 = 0xF023#16 ∧ 0xFF23#16 &&& 0xF0FF#16 = 0xF023#16) ∧
    (0xF024#16 &&& 0xF0FF#16 = 0xF024#16 ∧ 0xFF24#16 &&& 0xF0FF#16 = 0xF024#16) ∧
    (0xF025#16 &&& 0xF0FF#16 = 0xF025#16 ∧ 0xFF25#16 &&& 0xF0FF#16 = 0xF025#16) := by decide

/-- The vectors at the ends of both ranges, and their words. -/
theorem witness_UnknownVectorRaisesInvalidTrapVector : ∀ v ∈ [0x00#8, 0x1F#8, 0x26#8, 0xFF#8], (v.toNat < 0x20 ∨ 0x25 < v.toNat) ∧
    encodeTrap 0#4 v &&& 0xF000#16 = 0xF000#16 ∧
    (((encodeTrap 0#4 v).extractLsb' 0 8).toNat < 0x20 ∨ 0x25 < ((encodeTrap 0#4 v).extractLsb' 0 8).toNat) := by decide

theorem witness_GetcReadsOneByte : sample.input = .byte 0x61#8 :: [] ∧ (State.reset.answer .endOfStream).input = .endOfStream :: [] ∧
    (State.reset.answer .failure).input = .failure :: [] := by decide

theorem witness_InPromptsReadsAndEchoes : (prompting sample).input = .byte 0x61#8 :: [] ∧ (prompting (State.reset.answer .endOfStream)).input = .endOfStream :: [] ∧
    (prompting (State.reset.answer .failure)).input = .failure :: [] := by decide

theorem witness_InputWaitHoldsUntilAnswered : State.reset.runState = .running ∧ State.reset.input = [] := by decide

/-! Memories of one word repeated, for strings without an end. -/

/-- The first `n` addresses hold `v`. -/
def filled (n : Nat) (v : Word) : Memory := ⟨(List.range n).map fun k => (k, v)⟩

theorem lookupCell_filled (n k : Nat) (v : Word) : lookupCell k ((List.range n).map fun j => (j, v)) = if k < n then v else Memory.unlisted := by
  have h : ∀ m b, lookupCell k ((List.range' b m).map fun j => (j, v)) = if b ≤ k ∧ k < b + m then v else Memory.unlisted := by
    intro m
    induction m with
    | zero => intro b; rw [if_neg (by omega)]; rfl
    | succ m ih =>
      intro b
      simp only [List.range'_succ, List.map_cons, lookupCell, ih]
      by_cases hb : b = k
      · rw [if_pos hb, if_pos (by omega)]
      · rw [if_neg hb]
        by_cases hk : b + 1 ≤ k ∧ k < b + 1 + m
        · rw [if_pos hk, if_pos (by omega)]
        · rw [if_neg hk, if_neg (by omega)]
  rw [List.range_eq_range', h]
  simp

theorem filled_read (n : Nat) (v a : Word) : (filled n v).read a = if a.toNat < n then v else 0x0000#16 := lookupCell_filled n a.toNat v

/-- PUTS in every cell: its own low byte 0x22 ends no string. -/
def endless : State := { State.reset with mem := filled 65536 0xF022#16 }

theorem endless_read (a : Word) : endless.readMem a = 0xF022#16 := by
  rw [State.readMem_eq]; exact (filled_read 65536 0xF022#16 a).trans (if_pos a.isLt)

theorem witness_Unterminated : Unterminated endless := by
  intro a; rw [endless_read]; decide

theorem witness_UnterminatedStringNeverCompletes : Ready endless ∧
    (∃ dc, decode (endless.readMem endless.pc) = .puts dc ∨ decode (endless.readMem endless.pc) = .putsp dc) ∧ Unterminated endless :=
  ⟨by exact ⟨rfl, rfl⟩, ⟨0#4, .inl (by rw [endless_read]; decide)⟩, witness_Unterminated⟩

/-- The longest string there is: from address 0 to a zero at 0xFFFF. -/
theorem witness_StringLength_longest : StringLength { State.reset with mem := filled 65535 0x2141#16 } 0x0000#16 65535 := by
  have hr : ∀ j, j < 65536 → wordAt { State.reset with mem := filled 65535 0x2141#16 } 0x0000#16 j = if j < 65535 then 0x2141#16 else 0x0000#16 := by
    intro j hj
    rw [wordAt, State.readMem_eq]
    refine (filled_read 65535 0x2141#16 _).trans ?_
    rw [BitVec.zero_add, BitVec.toNat_ofNat, Nat.mod_eq_of_lt (by omega)]
  refine ⟨by omega, ?_, fun j hj => ?_⟩
  · rw [hr 65535 (by omega), if_neg (by omega)]; decide
  · rw [hr j (by omega), if_pos hj]; decide

/-- The two clauses of PUTS and of PUTSP: an empty string, the longest one, and none that ends. -/
theorem witness_PutsWritesLowBytes : StringLength State.reset (State.reset.reg .r0) 0 ∧ Unterminated endless :=
  ⟨⟨by omega, by decide, fun j hj => absurd hj (by omega)⟩, witness_Unterminated⟩

theorem witness_PutspWritesPackedBytes :
    StringLength { State.reset with mem := filled 65535 0x2141#16 } (State.reg { State.reset with mem := filled 65535 0x2141#16 } .r0) 65535 ∧
      Unterminated endless :=
  ⟨witness_StringLength_longest, witness_Unterminated⟩

end Sys2Proof.Tests
end

section
/-!
SUPPORT. Sign extension read through `sext_eq_signExtend` (00_scope R8): its signed value, and its bits and its value
under a clear and a set sign bit.
-/

namespace Sys2Proof.Machine

theorem sext_toInt {n : Nat} (h1 : 1 ≤ n) (h16 : n ≤ 16) (v : BitVec n) : (sext v).toInt = v.toInt := by
  rw [sext_eq_signExtend h1, BitVec.toInt_signExtend_of_le h16]

theorem sext_toNat_of_sign_clear {n : Nat} (h1 : 1 ≤ n) (h16 : n ≤ 16) {v : BitVec n} (hs : v.getLsbD (n - 1) = false) :
    (sext v).toNat = v.toNat := by
  have hmsb : v.msb = false := by rw [BitVec.msb_eq_getLsbD_last, hs]
  rw [sext_eq_signExtend h1, BitVec.signExtend_eq_setWidth_of_msb_false hmsb, BitVec.toNat_setWidth_of_le h16]

theorem sext_getLsbD_above {n : Nat} (h1 : 1 ≤ n) (v : BitVec n) {k : Nat} (hn : n ≤ k) (h16 : k < 16) :
    (sext v).getLsbD k = v.getLsbD (n - 1) := by
  rw [sext_eq_signExtend h1, BitVec.getLsbD_signExtend, if_neg (by omega), BitVec.msb_eq_getLsbD_last]
  simp [h16]

theorem sext_getLsbD_below {n : Nat} (h1 : 1 ≤ n) (v : BitVec n) {k : Nat} (hn : k < n) (h16 : k < 16) :
    (sext v).getLsbD k = v.getLsbD k := by
  rw [sext_eq_signExtend h1, BitVec.getLsbD_signExtend, if_pos hn]
  simp [h16]

theorem sext_word (v : Word) : sext v = v := by
  rw [sext_eq_signExtend (by decide), BitVec.signExtend_eq]

/-- Settles O7: `sext` is `BitVec.signExtend`, whose signed value, low bits and bits above are read off clause by clause. -/
theorem signExtensionKeepsTheSignedValue : Obligations.SignExtensionKeepsTheSignedValue := by
  refine ⟨fun n v h1 h16 => ⟨sext_toInt h1 h16 v, sext_toNat_of_sign_clear h1 h16, fun hs k hn hk => ?_, fun k hk => ?_⟩,
    sext_word⟩
  · rw [sext_getLsbD_above h1 v hn hk, hs]
  · exact sext_getLsbD_below h1 v hk (by omega)

end Sys2Proof.Machine
end

section
/-!
SUPPORT. What an instruction can do, said once: the decoder's two facts a handler needs (the opcode of a decoded word and
the vector of a decoded TRAP), and `ExecEffect`, the list of the updates `exec` can make, each with the instructions that
make it. Proofs about every instruction case on the effect and not on the 26 constructors.
-/

namespace Sys2Proof

/-! ### The decoder -/

theorem opcode_decodeAlu_add (w : Word) : (decodeAlu w .addReg .addImm).opcode = .add := by
  unfold decodeAlu; split <;> rfl

theorem opcode_decodeAlu_and (w : Word) : (decodeAlu w .andReg .andImm).opcode = .and := by
  unfold decodeAlu; split <;> rfl

theorem opcode_decodeJsr (w : Word) : (decodeJsr w).opcode = .jsr := by
  unfold decodeJsr; split <;> rfl

theorem opcode_decodeJmp (w : Word) : (decodeJmp w).opcode = .jmp := by
  unfold decodeJmp; split <;> rfl

theorem opcode_decodeTrap (w : Word) : (decodeTrap w).opcode = .trap := by
  unfold decodeTrap; split <;> rfl

/-- A decoded instruction carries the opcode of its word's top four bits (30_encoding R51, R60). -/
theorem opcode_decode (w : Word) : (decode w).opcode = Opcode.ofBits (field w 12 4) := by
  unfold decode
  cases Opcode.ofBits (field w 12 4) with
  | add => exact opcode_decodeAlu_add w
  | and => exact opcode_decodeAlu_and w
  | jsr => exact opcode_decodeJsr w
  | jmp => exact opcode_decodeJmp w
  | trap => exact opcode_decodeTrap w
  | br | ld | st | ldr | str | reserved8 | not | ldi | sti | reserved13 | lea => rfl

theorem Opcode.ofBits_eq_trap {b : BitVec 4} : Opcode.ofBits b = .trap ↔ b = 15#4 := by
  revert b; decide

theorem Opcode.ofBits_eq_reserved8 {b : BitVec 4} : Opcode.ofBits b = .reserved8 ↔ b = 8#4 := by
  revert b; decide

theorem Opcode.ofBits_eq_reserved13 {b : BitVec 4} : Opcode.ofBits b = .reserved13 ↔ b = 13#4 := by
  revert b; decide

/-- The vector of an instruction of opcode 15, a routine's own constructor included (30_encoding R64). -/
def trapVector : Instr → Option (BitVec 8)
  | .trap _ v => some v
  | .getc _ => some TrapRoutine.getc.vector
  | .out _ => some TrapRoutine.out.vector
  | .puts _ => some TrapRoutine.puts.vector
  | .in_ _ => some TrapRoutine.in_.vector
  | .putsp _ => some TrapRoutine.putsp.vector
  | .halt _ => some TrapRoutine.halt.vector
  | .br .. | .addReg .. | .addImm .. | .ld .. | .st .. | .jsr .. | .jsrr .. | .andReg .. | .andImm .. | .ldr .. | .str ..
  | .reserved8 .. | .not .. | .ldi .. | .sti .. | .jmp .. | .ret .. | .reserved13 .. | .lea .. => none

theorem opcode_of_trapVector {i : Instr} {v : BitVec 8} (h : trapVector i = some v) : i.opcode = .trap := by
  cases i <;> cases h <;> rfl

theorem trapVector_decodeTrap (w : Word) : trapVector (decodeTrap w) = some (field w 0 8) := by
  unfold decodeTrap
  split
  case h_7 => rfl
  all_goals exact congrArg some (TrapRoutine.vector_of_ofVector ‹_›).symm

/-- A TRAP's word carries opcode 15 and, in its low byte, the vector (44_trap R114). -/
theorem trapVector_decode {w : Word} {v : BitVec 8} (h : trapVector (decode w) = some v) :
    field w 12 4 = 15#4 ∧ field w 0 8 = v := by
  have hop : Opcode.ofBits (field w 12 4) = .trap := by rw [← opcode_decode, opcode_of_trapVector h]
  have hdec : decode w = decodeTrap w := by unfold decode; rw [hop]
  rw [hdec, trapVector_decodeTrap] at h
  exact ⟨Opcode.ofBits_eq_trap.mp hop, Option.some.inj h⟩

namespace Machine

/-- The routine of a word of opcode 15 is the one its vector names (30_encoding R64). -/
theorem routineOfWord_of_trap {w : Word} (h : field w 12 4 = 15#4) :
    routineOfWord w = TrapRoutine.ofVector (field w 0 8) := by
  unfold routineOfWord
  rw [← field_eq, h]; rfl

/-! ### The effects of exec -/

/-- What the handler of `i` can make of the state `s` after the fetch, with what `i` must be for each. -/
inductive ExecEffect (i : Instr) (s : State) : State → Prop where
  /-- a value in DR and COND (41_arith_logic R87) -/
  | result {dr : Reg} (v : Word) (hi : flagWriter i = some dr) : ExecEffect i s (s.writeResult dr v)
  /-- one word of memory (42_data_movement R104) -/
  | store {a : Word} (v : Word) (hi : storeAddress s i = some a) (hf : flagWriter i = none) : ExecEffect i s (s.writeMem a v)
  /-- PC alone; a BR not taken writes back the incremented PC (43_control_transfer R105 to R107) -/
  | jump (a : Word) (hi : writesPc i = true) (hf : flagWriter i = none) : ExecEffect i s (s.setPc a)
  /-- the link, then PC (43_control_transfer R108, R109) -/
  | call (a : Word) (hi : i.opcode = .jsr) (hf : flagWriter i = none) : ExecEffect i s (s.link.setPc a)
  /-- InvalidOpcode (40_execution_loop R74) -/
  | reserved (hi : i.opcode = .reserved8 ∨ i.opcode = .reserved13) (hf : flagWriter i = none) :
    ExecEffect i s (s.raise .invalidOpcode)
  /-- the optional link, then the routine of the vector (44_trap R114) -/
  | trap {v : BitVec 8} (hi : trapVector i = some v) (hf : flagWriter i = none) : ExecEffect i s (routineOf v s.trapLink)

/-- BR writes PC alone, with the incremented PC when it is not taken. -/
theorem execBr_eq_setPc (n z p : Bool) (off9 : BitVec 9) (s : State) :
    execBr n z p off9 s = .next (s.setPc (if branchTaken n z p s.cond then pcRel9 s off9 else s.pc)) := by
  unfold execBr; split <;> rfl

/-- Every instruction of opcode 15 is the optional link and then the routine of its vector (44_trap R114). -/
theorem exec_of_trapVector {i : Instr} {v : BitVec 8} (s : State) (h : trapVector i = some v) :
    exec i s = .next (routineOf v s.trapLink) := by
  cases i <;> cases h <;> rfl

/-- Every handler answers a next state, by one of the effects. -/
theorem exec_effect (i : Instr) (s : State) : ∃ t, exec i s = .next t ∧ ExecEffect i s t := by
  cases i with
  | br => exact ⟨_, execBr_eq_setPc .., .jump _ rfl rfl⟩
  | addReg | addImm | andReg | andImm | not | ld | ldi | ldr | lea => exact ⟨_, rfl, .result _ rfl⟩
  | st | sti | str => exact ⟨_, rfl, .store _ rfl rfl⟩
  | jmp | ret => exact ⟨_, rfl, .jump _ rfl rfl⟩
  | jsr | jsrr => exact ⟨_, rfl, .call _ rfl rfl⟩
  | reserved8 => exact ⟨_, rfl, .reserved (.inl rfl) rfl⟩
  | reserved13 => exact ⟨_, rfl, .reserved (.inr rfl) rfl⟩
  | trap | getc | out | puts | in_ | putsp | halt => exact ⟨_, exec_of_trapVector s rfl, .trap rfl rfl⟩

theorem effect_of_exec {i : Instr} {s t : State} (h : exec i s = .next t) : ExecEffect i s t := by
  obtain ⟨u, hu, he⟩ := exec_effect i s
  rw [hu] at h
  cases h
  exact he

/-! ### The cases of a step -/

/-- A step in progress leaves PC, COND, memory, the latch and the parameters alone (44_trap R115, R123). -/
theorem resumeStep_frame {h : Hold} {s t : State} (hs : resumeStep h s = .next t) :
    t.pc = s.pc ∧ t.cond = s.cond ∧ t.mem = s.mem ∧ t.ir = s.ir ∧ t.config = s.config := by
  cases h with
  | getc => cases hs; exact s.awaitByte_frame _ _ fun _ _ => by simp [finishGetc]
  | in_ => cases hs; exact s.awaitByte_frame _ _ fun _ _ => by simp [finishIn]
  | puts | putsp => cases hs; simp [State.outputString]

/-- A step fetches and executes, goes on with the step in progress, or does nothing (40_execution_loop R75, R81). -/
theorem step_cases {s t : State} (h : step s = .next t) :
    (Ready s ∧ exec s.fetch.latched s.fetch = .next t) ∨
      (∃ k, s.runState = .running ∧ s.hold = some k ∧ resumeStep k s = .next t) ∨ t = s := by
  by_cases hr : s.runState = .running
  · cases hk : s.hold with
    | none => exact .inl ⟨⟨hr, hk⟩, by rw [← step_ready ⟨hr, hk⟩, h]⟩
    | some k => exact .inr (.inl ⟨k, hr, rfl, by rw [← step_held hr hk, h]⟩)
  · rw [step_ended hr] at h
    cases h
    exact .inr (.inr rfl)

end Machine

end Sys2Proof
end

section
/-!
SUPPORT. The state elements over an instruction and a step (spec 10_state): who writes the registers, COND and memory, who
reads COND, and the invariant of the loop.
-/

namespace Sys2Proof.Machine

/-! ### COND -/

/-- COND after an instruction: unchanged, or `setcc` of what DR holds (10_state R25). -/
theorem exec_cond {i : Instr} {s t : State} (h : exec i s = .next t) :
    (flagWriter i = none ∧ t.cond = s.cond) ∨ ∃ dr, flagWriter i = some dr ∧ t.cond = condOf (t.reg dr) := by
  cases effect_of_exec h with
  | result v hi => exact .inr ⟨_, hi, by simp [State.reg_eq]⟩
  | store _ _ hf | jump _ _ hf | call _ _ hf | reserved _ hf => exact .inl ⟨hf, rfl⟩
  | trap _ hf =>
    obtain ⟨-, hcond, -⟩ := routineOf_frame _ s.trapLink
    exact .inl ⟨hf, by rw [hcond, State.trapLink_cond]⟩

/-- COND after a step: unchanged, or a flag `setcc` gave it (10_state R24). -/
theorem step_cond {s t : State} (h : step s = .next t) : t.cond = s.cond ∨ ∃ v, t.cond = condOf v := by
  rcases step_cases h with ⟨-, he⟩ | ⟨k, -, -, hk⟩ | rfl
  · rcases exec_cond he with ⟨-, hc⟩ | ⟨dr, -, hc⟩
    · exact .inl hc
    · exact .inr ⟨_, hc⟩
  · obtain ⟨-, hc, -⟩ := resumeStep_frame hk
    exact .inl hc
  · exact .inl rfl

theorem condOf_mem_flags (v : Word) : condOf v ∈ [0x0001#16, 0x0002#16, 0x0004#16] := by
  rcases condOf_cases v with h | h | h <;> rw [h] <;> decide

/-! ### Who reads COND -/

theorem State.trapLink_setCond (s : State) (c : Word) : (s.setCond c).trapLink = s.trapLink.setCond c := by
  unfold State.trapLink
  rw [State.setCond_config]
  split <;> rfl

/-- An input request does not read COND if what follows it does not. -/
theorem State.awaitByte_setCond (s : State) (c : Word) (h : Hold) {f : Byte → State → State}
    (hf : ∀ b u, f b (u.setCond c) = (f b u).setCond c) : (s.setCond c).awaitByte h f = (s.awaitByte h f).setCond c := by
  unfold State.awaitByte
  rw [State.setCond_input]
  split
  case h_2 b rest _ => exact hf b ((s.setInput rest).setHold none)
  all_goals rfl

/-- No routine reads COND (44_trap R116 to R122). -/
theorem routineOf_setCond (v : BitVec 8) (s : State) (c : Word) :
    routineOf v (s.setCond c) = (routineOf v s).setCond c := by
  unfold routineOf
  split
  · exact s.awaitByte_setCond c .getc fun _ _ => rfl
  · rfl
  · rfl
  · exact (s.outBytes s.config.inPrompt).awaitByte_setCond c .in_ fun _ _ => rfl
  · rfl
  · rfl
  · rfl

/-- Every instruction but BR does the same from another COND, which it overwrites if it writes flags (10_state R26). -/
theorem exec_setCond {i : Instr} (s : State) (c : Word) (h : isBr i = false) :
    ∃ t, exec i s = .next t ∧ exec i (s.setCond c) = .next (t.setCond (if flagWriter i = none then c else t.cond)) := by
  have routine {v : BitVec 8} (hv : trapVector i = some v) :
      exec i (s.setCond c) = .next ((routineOf v s.trapLink).setCond c) := by
    rw [exec_of_trapVector _ hv, State.trapLink_setCond, routineOf_setCond]
  cases i with
  | br => cases h
  | addReg | addImm | andReg | andImm | not | ld | ldi | ldr | lea => exact ⟨_, rfl, rfl⟩
  | st | sti | str | jmp | ret | jsr | jsrr | reserved8 | reserved13 => exact ⟨_, rfl, rfl⟩
  | trap | getc | out | puts | in_ | putsp | halt => exact ⟨_, exec_of_trapVector s rfl, routine rfl⟩

/-! ### Registers -/

theorem writtenRegs_of_flagWriter (c : Config) {i : Instr} {dr : Reg} (h : flagWriter i = some dr) :
    writtenRegs c i = [dr] := by
  cases i <;> cases h <;> rfl

theorem writtenRegs_of_jsr (c : Config) {i : Instr} (h : i.opcode = .jsr) : writtenRegs c i = [.r7] := by
  cases i <;> cases h <;> rfl

theorem writtenRegs_of_trapVector (c : Config) {i : Instr} {v : BitVec 8} (h : trapVector i = some v) :
    writtenRegs c i = writtenRegs c (.trap 0#4 v) := by
  cases i <;> cases h <;> rfl

/-- TRAP's row of the table of 10_state R15: the link, and R0 for GETC and IN. -/
theorem mem_writtenRegs_trap {c : Config} {dc : BitVec 4} {v : BitVec 8} {r : Reg} :
    r ∈ writtenRegs c (.trap dc v) ↔
      r ∈ linkRegs c ∨ (r = .r0 ∧ (TrapRoutine.ofVector v = some .getc ∨ TrapRoutine.ofVector v = some .in_)) := by
  cases hv : TrapRoutine.ofVector v with
  | none => simp [writtenRegs, hv]
  | some q => cases q <;> simp [writtenRegs, hv, or_comm]

theorem mem_linkRegs {c : Config} {r : Reg} : r ∈ linkRegs c ↔ c.trapLinksR7 ∧ r = .r7 := by
  unfold linkRegs; split <;> simp [*]

/-- Only GETC and IN write R0 (44_trap R116 to R122). -/
theorem routineOf_reg_r0 {v : BitVec 8} (s : State) (hg : TrapRoutine.ofVector v ≠ some .getc)
    (hi : TrapRoutine.ofVector v ≠ some .in_) : (routineOf v s).reg .r0 = s.reg .r0 := by
  unfold routineOf
  split
  case h_1 hv => exact absurd hv hg
  case h_4 hv => exact absurd hv hi
  all_goals rfl

/-- A TRAP leaves the registers outside its row alone. -/
theorem routineOf_trapLink_reg {dc : BitVec 4} {v : BitVec 8} {s : State} {r : Reg}
    (h : r ∉ writtenRegs s.config (.trap dc v)) : (routineOf v s.trapLink).reg r = s.reg r := by
  rw [mem_writtenRegs_trap, mem_linkRegs] at h
  have hlink : s.trapLink.reg r = s.reg r := by
    rw [State.trapLink_reg, if_neg fun hl => h (.inl hl)]
  by_cases hr : r = .r0
  · subst hr
    rw [routineOf_reg_r0 s.trapLink (fun hv => h (.inr ⟨rfl, .inl hv⟩)) fun hv => h (.inr ⟨rfl, .inr hv⟩), hlink]
  · rw [routineOf_reg v s.trapLink hr, hlink]

/-- Every register outside an instruction's row of the table of 10_state R15 is unchanged. -/
theorem exec_reg {i : Instr} {s t : State} {r : Reg} (h : exec i s = .next t) (hr : r ∉ writtenRegs s.config i) :
    t.reg r = s.reg r := by
  cases effect_of_exec h with
  | result v hi =>
    rw [writtenRegs_of_flagWriter _ hi, List.mem_singleton] at hr
    exact RegFile.get_set_other _ v hr
  | store | jump | reserved => rfl
  | call a hi =>
    rw [writtenRegs_of_jsr _ hi, List.mem_singleton] at hr
    exact RegFile.get_set_other _ s.pc hr
  | trap hi =>
    rw [writtenRegs_of_trapVector _ hi] at hr
    exact routineOf_trapLink_reg hr

/-! ### Memory -/

/-- Memory after an instruction: unchanged, or one word written. -/
theorem exec_mem {i : Instr} {s t : State} (h : exec i s = .next t) : t.mem = s.mem ∨ ∃ a v, t.mem = s.mem.write a v := by
  cases effect_of_exec h with
  | store v => exact .inr ⟨_, v, rfl⟩
  | result | jump | call | reserved => exact .inl rfl
  | trap =>
    obtain ⟨-, -, hmem, -⟩ := routineOf_frame _ s.trapLink
    exact .inl (by rw [hmem, State.trapLink_mem])

/-- A step keeps the canonical form of memory (20_memory R36, R37; log entry 9). -/
theorem step_mem_wf {s t : State} (h : step s = .next t) (hs : s.mem.wf) : t.mem.wf := by
  rcases step_cases h with ⟨-, he⟩ | ⟨k, -, -, hk⟩ | rfl
  · rcases exec_mem he with hm | ⟨a, v, hm⟩
    · rw [hm]; exact hs
    · rw [hm]; exact Memory.write_wf hs a v
  · obtain ⟨-, -, hm, -⟩ := resumeStep_frame hk
    rw [hm]; exact hs
  · exact hs

/-! ### The loop's part of the invariant -/

/-- A legal step in progress and a legal end: the part of `Inv` about the loop. -/
abbrev LoopLegal (s : State) : Prop := holdLegal s ∧ endLegal s

theorem holdLegal_iff_of_hold {s : State} {k : Hold} (h : s.hold = some k) :
    holdLegal s ↔ s.runState = .running ∧ routineOfWord s.ir = some k.routine := by
  simp [holdLegal, h]

theorem holdLegal_of_no_hold {s : State} (h : s.hold = none) : holdLegal s := by
  simp [holdLegal, h]

theorem endLegal_of_running {s : State} (h : s.runState = .running) : endLegal s := by
  simp [endLegal, h]

theorem endLegal_raise {s : State} {k : ErrorKind} : endLegal (s.raise k) ↔ kindFits k s.ir := by
  simp [endLegal]

theorem endLegal_halt {s : State} : endLegal s.halt ↔ routineOfWord s.ir = some .halt :=
  decide_eq_true_iff

theorem kindFits_invalidOpcode {w : Word} :
    kindFits .invalidOpcode w ↔ field w 12 4 = 8#4 ∨ field w 12 4 = 13#4 := by
  rw [kindFits, Bool.or_eq_true, decide_eq_true_iff, decide_eq_true_iff]; rfl

/-- In Running with no step in progress the loop is legal. -/
theorem loopLegal_of_ready {s : State} (h : Ready s) : LoopLegal s :=
  ⟨holdLegal_of_no_hold h.2, endLegal_of_running h.1⟩

/-- In Running with a step in progress the loop is legal when the latch selects the routine in progress. -/
theorem loopLegal_of_hold {s : State} {k : Hold} (hr : s.runState = .running) (hk : s.hold = some k)
    (hw : routineOfWord s.ir = some k.routine) : LoopLegal s :=
  ⟨(holdLegal_iff_of_hold hk).mpr ⟨hr, hw⟩, endLegal_of_running hr⟩

theorem loopLegal_raise {s : State} {k : ErrorKind} (hh : s.hold = none) (hk : kindFits k s.ir) : LoopLegal (s.raise k) :=
  ⟨holdLegal_of_no_hold hh, endLegal_raise.mpr hk⟩

/-- The input request of the latched routine, GETC or IN: it holds, finishes, or raises IOFailure (44_trap R115). -/
theorem awaitByte_loopLegal {s : State} {k : Hold} {f : Byte → State → State} (hr : s.runState = .running)
    (hk : k = .getc ∨ k = .in_) (hw : routineOfWord s.ir = some k.routine) (hf : ∀ b u, Ready u → Ready (f b u)) :
    LoopLegal (s.awaitByte k f) := by
  have hfit : kindFits .ioFailure s.ir := by
    rcases hk with rfl | rfl <;> simp [kindFits, hw, Hold.routine]
  unfold State.awaitByte
  split
  case h_1 => exact loopLegal_of_hold hr rfl hw
  case h_2 b rest _ => exact loopLegal_of_ready (hf b _ ⟨hr, rfl⟩)
  all_goals exact loopLegal_raise rfl hfit

theorem awaitGetc_loopLegal {s : State} (hr : s.runState = .running) (hw : routineOfWord s.ir = some .getc) :
    LoopLegal s.awaitGetc :=
  awaitByte_loopLegal hr (.inl rfl) hw fun _ _ hu => hu

theorem awaitIn_loopLegal {s : State} (hr : s.runState = .running) (hw : routineOfWord s.ir = some .in_) :
    LoopLegal s.awaitIn :=
  awaitByte_loopLegal hr (.inr rfl) hw fun _ _ hu => hu

/-- A pass of the latched string routine: it ends, or the step stays in progress (44_trap R123). -/
theorem outputString_loopLegal {s : State} {k : Hold} (emit : Word → List Byte) (hr : s.runState = .running)
    (hw : routineOfWord s.ir = some k.routine) : LoopLegal (s.outputString k emit) := by
  cases hend : (scan emit s.mem addressCount (s.reg .r0)).ended with
  | true => exact loopLegal_of_ready ⟨hr, by simp [State.outputString, hend]⟩
  | false => exact loopLegal_of_hold (k := k) hr (by simp [State.outputString, hend]) hw

/-- The routine the latched TRAP names leaves the loop legal. -/
theorem routineOf_loopLegal {v : BitVec 8} {s : State} (hs : Ready s) (hop : field s.ir 12 4 = 15#4)
    (hv : routineOfWord s.ir = TrapRoutine.ofVector v) : LoopLegal (routineOf v s) := by
  obtain ⟨hr, hh⟩ := hs
  unfold routineOf
  split
  next hq => exact awaitGetc_loopLegal hr (hv.trans hq)
  next => exact loopLegal_of_ready ⟨hr, hh⟩
  next hq => exact outputString_loopLegal _ hr (hv.trans hq)
  next hq => exact awaitIn_loopLegal hr (hv.trans hq)
  next hq => exact outputString_loopLegal _ hr (hv.trans hq)
  next hq => exact ⟨holdLegal_of_no_hold hh, endLegal_halt.mpr (hv.trans hq)⟩
  next hq => exact loopLegal_raise hh (by simp [kindFits, hv, hq, ← field_eq, hop])

/-- The handler of the latched instruction leaves the loop legal. -/
theorem exec_latched_loopLegal {s t : State} (hs : Ready s) (h : exec s.latched s = .next t) : LoopLegal t := by
  obtain ⟨hr, hh⟩ := hs
  cases effect_of_exec h with
  | result | store | jump | call => exact loopLegal_of_ready ⟨hr, hh⟩
  | reserved hi =>
    refine loopLegal_raise hh ?_
    rw [State.latched, opcode_decode, Opcode.ofBits_eq_reserved8, Opcode.ofBits_eq_reserved13] at hi
    exact kindFits_invalidOpcode.mpr hi
  | trap hi =>
    obtain ⟨hop, rfl⟩ := trapVector_decode hi
    refine routineOf_loopLegal ⟨by simpa using hr, by simpa using hh⟩ (by simpa using hop) ?_
    rw [State.trapLink_ir, routineOfWord_of_trap hop]

/-- A step in progress leaves the loop legal if it was. -/
theorem resumeStep_loopLegal {k : Hold} {s t : State} (hr : s.runState = .running)
    (hw : routineOfWord s.ir = some k.routine) (h : resumeStep k s = .next t) : LoopLegal t := by
  cases k with
  | getc => cases h; exact awaitGetc_loopLegal hr hw
  | in_ => cases h; exact awaitIn_loopLegal hr hw
  | puts | putsp => cases h; exact outputString_loopLegal _ hr hw

/-- A step keeps the loop legal (40_execution_loop R76; 60_exceptions R131, R132). -/
theorem step_loopLegal {s t : State} (h : step s = .next t) (hs : LoopLegal s) : LoopLegal t := by
  rcases step_cases h with ⟨hready, he⟩ | ⟨k, hr, hk, hres⟩ | rfl
  · exact exec_latched_loopLegal (s := s.fetch) hready he
  · obtain ⟨-, hw⟩ := (holdLegal_iff_of_hold hk).mp hs.1
    exact resumeStep_loopLegal hr hw hres
  · exact hs

/-! ### The obligations of 10_state -/

/-- Settles O12, part by part: memory is unchanged or written once, COND is unchanged or given by `setcc`, and the loop's
part follows the three cases of a step. -/
theorem invariantKeptByEveryStep : Obligations.InvariantKeptByEveryStep := by
  rintro s t ⟨hmem, hcond, hloop⟩ h
  refine ⟨step_mem_wf h hmem, ?_, step_loopLegal h hloop⟩
  rcases step_cond h with hc | ⟨v, hc⟩ <;> rw [hc]
  · exact hcond
  · exact condOf_legal v

/-- Settles O13: a step leaves COND or gives it what `setcc` gives, one of the three flags. -/
theorem condKeepsAFlagOnceWritten : Obligations.CondKeepsAFlagOnceWritten := by
  intro s t hflag h
  rcases step_cond h with hc | ⟨v, hc⟩ <;> rw [hc]
  · exact hflag
  · exact condOf_mem_flags v

/-- Settles O21, by the effects of `exec`. -/
theorem registersWrittenOnlyByTheirWriters : Obligations.RegistersWrittenOnlyByTheirWriters :=
  fun _ _ _ _ h hr => exec_reg h hr

/-- Settles O22: the two cases of `exec_cond` are told apart by `flagWriter`. -/
theorem condWrittenOnlyByFlagWriters : Obligations.CondWrittenOnlyByFlagWriters := by
  intro i s t h
  rcases exec_cond h with ⟨hf, hc⟩ | ⟨dr, hf, hc⟩
  · exact ⟨fun _ => hc, by simp [hf]⟩
  · exact ⟨by simp [hf], by simpa [hf] using hc⟩

/-- Settles O23: no handler but BR's reads COND, and BR writes PC alone. -/
theorem onlyBrReadsCond : Obligations.OnlyBrReadsCond := by
  refine ⟨fun i s c hi => exec_setCond s c hi, fun i s t hi h => ?_⟩
  cases i with
  | br n z p off9 =>
    change execBr n z p off9 s = .next t at h
    rw [execBr_eq_setPc] at h
    cases h
    exact ⟨fun _ _ => rfl, fun _ => rfl⟩
  | _ => cases hi

/-- Settles O10: each element of `State.resetWith` is read off. -/
theorem resetGivesEveryElementItsValue : Obligations.ResetGivesEveryElementItsValue :=
  fun _ => ⟨fun r => by cases r <;> rfl, rfl, rfl, Memory.read_empty, rfl, rfl⟩

/-- Settles O11: memory is empty, COND clear, and the machine Running with no step in progress. -/
theorem invariantHoldsAtReset : Obligations.InvariantHoldsAtReset :=
  fun c => ⟨State.reset_mem_wf c, rfl, loopLegal_of_ready ⟨rfl, rfl⟩⟩

end Sys2Proof.Machine
end

section
/-!
SUPPORT. The memory_array (spec 20_memory): the effective addresses, the one word a store changes, the fetch of a word just
stored, and the canonical form as the sorted list of the cells that do not read as unlisted.
-/

namespace Sys2Proof.Machine

/-! ### Effective addresses -/

/-- A base plus a sign-extended offset is the signed sum modulo 65536 (20_memory R42). -/
theorem toNat_add_sext {n : Nat} (h1 : 1 ≤ n) (h16 : n ≤ 16) (a : Word) (v : BitVec n) :
    ((a + sext v).toNat : Int) = ((a.toNat : Int) + v.toInt) % 65536 := by
  have hsext : ((sext v).toNat : Int) ≡ v.toInt [ZMOD 65536] := by
    rw [← sext_toInt h1 h16 v, BitVec.toInt_eq_toNat_bmod]
    exact (Int.bmod_emod (m := 65536)).symm
  rw [BitVec.toNat_add, Int.natCast_mod, Nat.cast_add]
  exact hsext.add_left _

/-! ### Stores -/

/-- An instruction changes no word of memory but the one at its store address (20_memory R38). -/
theorem exec_readMem {i : Instr} {s t : State} {a : Word} (h : exec i s = .next t) (ha : storeAddress s i ≠ some a) :
    t.readMem a = s.readMem a := by
  cases effect_of_exec h with
  | store v hi =>
    rw [hi] at ha
    exact s.mem.read_write_other v fun hab => ha (by rw [hab])
  | result | jump | call | reserved => rfl
  | trap =>
    obtain ⟨-, -, hmem, -⟩ := routineOf_frame _ s.trapLink
    rw [State.readMem_eq, hmem, State.trapLink_mem, State.readMem_eq]

/-- A step whose handler stores to the address after the instruction makes the next step run the word stored
(20_memory R49). -/
theorem step_step_of_store_next {s : State} {i : Instr} {a v : Word} (hs : Ready s) (hi : decode (s.readMem s.pc) = i)
    (he : exec i s.fetch = .next (s.fetch.writeMem a v)) (ha : a = s.pc + 1#16) :
    ∃ t, step s = .next t ∧ step t = exec (decode v) t.fetch := by
  subst hi ha
  have hword : (s.fetch.writeMem (s.pc + 1#16) v).fetch.ir = v := Memory.read_write_same ..
  refine ⟨_, (step_ready hs).trans he, ?_⟩
  rw [step_ready (s := s.fetch.writeMem _ v) hs, State.latched, hword]

/-! ### The canonical form -/

theorem lookupCell_of_mem {l : List (Nat × Word)} (hl : l.Pairwise (fun c d => c.1 < d.1)) {c : Nat × Word} (hc : c ∈ l) :
    lookupCell c.1 l = c.2 := by
  induction l with
  | nil => cases hc
  | cons d ds ih =>
    obtain ⟨hd, hds⟩ := List.pairwise_cons.mp hl
    rcases List.mem_cons.mp hc with rfl | hc
    · exact if_pos rfl
    · exact (if_neg (hd c hc).ne).trans (ih hds hc)

theorem mem_of_lookupCell_ne {k : Nat} {l : List (Nat × Word)} (h : lookupCell k l ≠ Memory.unlisted) :
    (k, lookupCell k l) ∈ l := by
  induction l with
  | nil => exact absurd rfl h
  | cons c cs ih =>
    unfold lookupCell at h ⊢
    split
    case isTrue hk => subst hk; exact List.mem_cons_self
    case isFalse hk =>
      rw [if_neg hk] at h
      exact List.mem_cons_of_mem c (ih h)

/-- The cells of a canonical memory are the addresses that do not read as unlisted, each with what it reads as. -/
theorem Memory.mem_cells_iff {m : Memory} (h : m.wf) {c : Nat × Word} :
    c ∈ m.cells ↔ c.1 < 65536 ∧ c.2 ≠ Memory.unlisted ∧ m.read (BitVec.ofNat 16 c.1) = c.2 := by
  obtain ⟨hsorted, hcells⟩ := h
  have hread (hk : c.1 < 65536) : m.read (BitVec.ofNat 16 c.1) = lookupCell c.1 m.cells := by
    rw [Memory.read, BitVec.toNat_ofNat, Nat.mod_eq_of_lt hk]
  constructor
  · intro hc
    obtain ⟨hk, hv⟩ := hcells c hc
    exact ⟨hk, hv, (hread hk).trans (lookupCell_of_mem hsorted hc)⟩
  · rintro ⟨hk, hv, hr⟩
    rw [hread hk] at hr
    have hmem := mem_of_lookupCell_ne (hr.trans_ne hv)
    rwa [hr] at hmem

/-- Two lists with strictly rising addresses and the same cells are one list. -/
theorem cells_eq_of_mem_iff {l m : List (Nat × Word)} (hl : l.Pairwise (fun c d => c.1 < d.1))
    (hm : m.Pairwise (fun c d => c.1 < d.1)) (h : ∀ c, c ∈ l ↔ c ∈ m) : l = m := by
  have : Std.Irrefl (fun c d : Nat × Word => c.1 < d.1) := ⟨fun c => Nat.lt_irrefl c.1⟩
  have : Std.Antisymm (fun c d : Nat × Word => c.1 < d.1) := ⟨fun _ _ hcd hdc => absurd hcd (Nat.lt_asymm hdc)⟩
  exact hl.eq_of_mem_iff hm h

/-! ### The obligations of 20_memory -/

/-- Settles O8: each of the three addresses is a base plus a sign-extended offset. -/
theorem effectiveAddressesWrap : Obligations.EffectiveAddressesWrap :=
  fun s off9 off11 b off6 => ⟨toNat_add_sext (by decide) (by decide) s.pc off9,
    toNat_add_sext (by decide) (by decide) s.pc off11, toNat_add_sext (by decide) (by decide) (s.reg b) off6⟩

/-- Settles O24, by the effects of `exec`: only a store's writes memory, at the store address. -/
theorem memoryWrittenOnlyByStores : Obligations.MemoryWrittenOnlyByStores :=
  fun _ _ _ _ h ha => exec_readMem h ha

/-- Settles O27: the three stores are one write each, and the next fetch reads it. -/
theorem storedWordIsTheNextFetched : Obligations.StoredWordIsTheNextFetched :=
  fun _ _ hs => ⟨fun _ hi ha => step_step_of_store_next hs hi rfl ha, fun _ hi ha => step_step_of_store_next hs hi rfl ha,
    fun _ _ hi ha => step_step_of_store_next hs hi rfl ha⟩

/-- Settles O28: canonical memories that read alike list the same cells, and sorted lists of the same cells are equal. -/
theorem memoriesThatReadAlikeAreEqual : Obligations.MemoriesThatReadAlikeAreEqual := by
  rintro ⟨l⟩ ⟨l'⟩ hm hn h
  refine congrArg Memory.mk (cells_eq_of_mem_iff hm.1 hn.1 fun c => ?_)
  rw [Memory.mem_cells_iff hm, Memory.mem_cells_iff hn, h]

end Sys2Proof.Machine
end

section
/-!
SUPPORT. The encoding (spec 30_encoding): a word as the fields of its format put together (encode after decode), a format's
fields read back from the word (decode after encode), the rows of the opcode table, and the don't-care bits.
-/

namespace Sys2Proof

/-! ### Opcode numbers -/

/-- The number of an opcode in the map of R60. -/
def Opcode.toBits : Opcode → BitVec 4
  | .br => 0b0000#4
  | .add => 0b0001#4
  | .ld => 0b0010#4
  | .st => 0b0011#4
  | .jsr => 0b0100#4
  | .and => 0b0101#4
  | .ldr => 0b0110#4
  | .str => 0b0111#4
  | .reserved8 => 0b1000#4
  | .not => 0b1001#4
  | .ldi => 0b1010#4
  | .sti => 0b1011#4
  | .jmp => 0b1100#4
  | .reserved13 => 0b1101#4
  | .lea => 0b1110#4
  | .trap => 0b1111#4

@[simp] theorem Opcode.ofBits_toBits (o : Opcode) : Opcode.ofBits o.toBits = o := by
  cases o <;> rfl

@[simp] theorem Opcode.toBits_ofBits (b : BitVec 4) : (Opcode.ofBits b).toBits = b := by
  revert b; decide

theorem Opcode.ofBits_inj {b c : BitVec 4} : Opcode.ofBits b = Opcode.ofBits c ↔ b = c :=
  (Function.LeftInverse.injective Opcode.toBits_ofBits).eq_iff

theorem field_opcode_toNat (w : Word) : (field w 12 4).toNat = w.toNat / 4096 := by
  rw [field_eq, BitVec.extractLsb'_toNat, Nat.shiftRight_eq_div_pow]
  omega

theorem field_opcode_eq_iff {w : Word} {b : BitVec 4} : field w 12 4 = b ↔ w.toNat / 4096 = b.toNat := by
  rw [← BitVec.toNat_inj, field_opcode_toNat]

/-- Every format has its opcode's number in the top four bits (R51, R52). -/
theorem field_encode_opcode (i : Instr) : field (encode i) 12 4 = i.opcode.toBits := by
  cases i <;> simp [encode, encodeTrap, field_or, field_place_same, field_place_above, Instr.opcode, Opcode.toBits]

/-! ### A word from its fields -/

theorem toBits_drOf (w : Word) : (drOf w).toBits = field w 9 3 := Reg.toBits_ofBits _

theorem toBits_baseOf (w : Word) : (baseOf w).toBits = field w 6 3 := Reg.toBits_ofBits _

theorem toBits_sr2Of (w : Word) : (sr2Of w).toBits = field w 0 3 := Reg.toBits_ofBits _

theorem bitField_bit (w : Word) (i : Nat) : bitField (bit w i) = field w i 1 := by
  refine (field_ext fun k hk => ?_).symm
  obtain rfl : k = 0 := by omega
  exact (getElem_bitField (bit w i) hk).symm

theorem one_eq_field {w : Word} {i : Nat} (h : bit w i = true) : 0b1#1 = field w i 1 := by
  rw [← bitField_bit, h]; rfl

theorem zero_eq_field {w : Word} {i : Nat} (h : ¬bit w i = true) : 0b0#1 = field w i 1 := by
  rw [← bitField_bit, eq_false_of_ne_true h]; rfl

/-- Two adjacent fields of a word, each at its place, are one field at its place. -/
theorem place_field_append (w : Word) (hi lo m n : Nat) (h : hi = lo + n) :
    place hi (field w hi m) ||| place lo (field w lo n) = place lo (field w lo (n + m)) := by
  subst h
  apply BitVec.eq_of_getLsbD_eq
  intro i hi
  rw [BitVec.getLsbD_or, getLsbD_place, getLsbD_place, getLsbD_place, getLsbD_field, getLsbD_field, getLsbD_field]
  by_cases hlo : lo ≤ i
  · by_cases hn : lo + n ≤ i
    · simp [hi, hlo, hn, show i - (lo + n) < m ↔ i - lo < n + m by omega, show ¬i - lo < n by omega]
    · simp [hi, hlo, hn, show i - lo < n by omega, show i - lo < n + m by omega]
  · simp [hlo, show ¬lo + n ≤ i by omega]

/-- The field of all sixteen bits is the word. -/
theorem place_field_word (w : Word) (n : Nat) (h : n = 16) : place 0 (field w 0 n) = w := by
  subst h
  simp [place, field]

/-! ### Encode after decode -/

/-- ADD and AND, from the two formats of either opcode (R52, R61). -/
theorem encode_decodeAlu {w : Word} {op : BitVec 4} {regForm : Reg → Reg → BitVec 2 → Reg → Instr}
    {immForm : Reg → Reg → BitVec 5 → Instr} (hop : op = field w 12 4)
    (hreg : ∀ dr sr1 dc sr2, encode (regForm dr sr1 dc sr2) =
      place 12 op ||| place 9 dr.toBits ||| place 6 sr1.toBits ||| place 5 0b0#1 ||| place 3 dc ||| place 0 sr2.toBits)
    (himm : ∀ dr sr1 imm5, encode (immForm dr sr1 imm5) =
      place 12 op ||| place 9 dr.toBits ||| place 6 sr1.toBits ||| place 5 0b1#1 ||| place 0 imm5) :
    encode (decodeAlu w regForm immForm) = w := by
  unfold decodeAlu
  split
  case isTrue h =>
    simp (disch := rfl) only [himm, hop, toBits_drOf, toBits_baseOf, one_eq_field h, place_field_append, place_field_word]
  case isFalse h =>
    simp (disch := rfl) only [hreg, hop, toBits_drOf, toBits_baseOf, toBits_sr2Of, zero_eq_field h, place_field_append,
      place_field_word]

theorem encode_decodeJsr {w : Word} (hop : 0b0100#4 = field w 12 4) : encode (decodeJsr w) = w := by
  unfold decodeJsr
  split
  case isTrue h => simp (disch := rfl) only [encode, hop, one_eq_field h, place_field_append, place_field_word]
  case isFalse h =>
    simp (disch := rfl) only [encode, hop, zero_eq_field h, toBits_baseOf, place_field_append, place_field_word]

theorem encode_decodeJmp {w : Word} (hop : 0b1100#4 = field w 12 4) : encode (decodeJmp w) = w := by
  unfold decodeJmp
  split
  case isTrue h =>
    have hbase : 0b111#3 = field w 6 3 := ((Reg.ofBits_eq_r7 _).mp h).symm
    simp (disch := rfl) only [encode, hop, hbase, place_field_append, place_field_word]
  case isFalse => simp (disch := rfl) only [encode, hop, toBits_baseOf, place_field_append, place_field_word]

/-- Whichever constructor it decodes to, a word of opcode 15 is encoded with its own vector (R64). -/
theorem encode_decodeTrap_eq (w : Word) : encode (decodeTrap w) = encodeTrap (field w 8 4) (field w 0 8) := by
  unfold decodeTrap
  split
  case h_7 => rfl
  all_goals exact congrArg (encodeTrap _) (TrapRoutine.vector_of_ofVector ‹_›).symm

theorem encode_decodeTrap {w : Word} (hop : 0b1111#4 = field w 12 4) : encode (decodeTrap w) = w := by
  rw [encode_decodeTrap_eq]
  simp (disch := rfl) only [encodeTrap, hop, place_field_append, place_field_word]

theorem encode_decode (w : Word) : encode (decode w) = w := by
  have hop : (Opcode.ofBits (field w 12 4)).toBits = field w 12 4 := Opcode.toBits_ofBits _
  unfold decode
  cases h : Opcode.ofBits (field w 12 4) <;> rw [h, Opcode.toBits] at hop
  case add => exact encode_decodeAlu hop (fun _ _ _ _ => rfl) fun _ _ _ => rfl
  case and => exact encode_decodeAlu hop (fun _ _ _ _ => rfl) fun _ _ _ => rfl
  case jsr => exact encode_decodeJsr hop
  case jmp => exact encode_decodeJmp hop
  case trap => exact encode_decodeTrap hop
  all_goals
    simp (disch := rfl) only [encode, hop, bitField_bit, toBits_drOf, toBits_baseOf, place_field_append, place_field_word]

/-! ### Decode after encode -/

/-- The decoder takes the row of the opcode and reads each field of the format back from its place. -/
theorem decode_encode {i : Instr} (h : i.wf = true) : decode (encode i) = i := by
  unfold decode
  rw [field_encode_opcode, Opcode.ofBits_toBits]
  cases i with
  | br => simp [Instr.opcode, encode, field_or, field_place_same, field_place_below, bit_or, bit_place, getElem_bitField]
  | addReg | addImm | andReg | andImm =>
    simp [Instr.opcode, encode, decodeAlu, drOf, baseOf, sr2Of, field_or, field_place_same, field_place_above,
      field_place_below, bit_or, bit_place]
  | jsr | jsrr =>
    simp [Instr.opcode, encode, decodeJsr, baseOf, field_or, field_place_same, field_place_above, field_place_below, bit_or,
      bit_place]
  | jmp dcHi baseR dcLo =>
    have hbase : baseR ≠ .r7 := of_decide_eq_true h
    simp [Instr.opcode, encode, decodeJmp, hbase, baseOf, field_or, field_place_same, field_place_above, field_place_below]
  | ret =>
    simp [Instr.opcode, encode, decodeJmp, Reg.ofBits_eq_r7, baseOf, field_or, field_place_same, field_place_above,
      field_place_below]
  | trap dc v =>
    have hv : TrapRoutine.ofVector v = none := (TrapRoutine.ofVector_none_iff v).mpr (by simpa [Instr.wf] using h)
    simp [Instr.opcode, encode, encodeTrap, decodeTrap, hv, field_or, field_place_same, field_place_above, field_place_below]
  | getc | out | puts | in_ | putsp | halt =>
    simp [Instr.opcode, encode, encodeTrap, decodeTrap, field_or, field_place_same, field_place_above, field_place_below]
  | ld | st | ldr | str | reserved8 | not | ldi | sti | reserved13 | lea =>
    simp [Instr.opcode, encode, drOf, baseOf, field_or, field_place_same, field_place_above, field_place_below]

/-! ### The rows of the opcode table -/

/-- The word of every instruction has the fixed bits of its row. -/
theorem encode_rowBits : ∀ i : Instr, encode i &&& i.rowMask = i.rowMatch
  | .br .. => Laws.RowBits.br ..
  | .addReg .. => Laws.RowBits.addReg ..
  | .addImm .. => Laws.RowBits.addImm ..
  | .ld .. => Laws.RowBits.ld ..
  | .st .. => Laws.RowBits.st ..
  | .jsr .. => Laws.RowBits.jsr ..
  | .jsrr .. => Laws.RowBits.jsrr ..
  | .andReg .. => Laws.RowBits.andReg ..
  | .andImm .. => Laws.RowBits.andImm ..
  | .ldr .. => Laws.RowBits.ldr ..
  | .str .. => Laws.RowBits.str ..
  | .reserved8 .. => Laws.RowBits.reserved8 ..
  | .not .. => Laws.RowBits.not ..
  | .ldi .. => Laws.RowBits.ldi ..
  | .sti .. => Laws.RowBits.sti ..
  | .jmp .. => Laws.RowBits.jmp ..
  | .ret .. => Laws.RowBits.ret ..
  | .reserved13 .. => Laws.RowBits.reserved13 ..
  | .lea .. => Laws.RowBits.lea ..
  | .trap .. => Laws.RowBits.trap ..
  | .getc .. => Laws.RowBits.getc ..
  | .out .. => Laws.RowBits.out ..
  | .puts .. => Laws.RowBits.puts ..
  | .in_ .. => Laws.RowBits.in_ ..
  | .putsp .. => Laws.RowBits.putsp ..
  | .halt .. => Laws.RowBits.halt ..

theorem wf_decodeAlu (w : Word) {regForm : Reg → Reg → BitVec 2 → Reg → Instr} {immForm : Reg → Reg → BitVec 5 → Instr}
    (hreg : ∀ dr sr1 dc sr2, (regForm dr sr1 dc sr2).wf = true) (himm : ∀ dr sr1 imm5, (immForm dr sr1 imm5).wf = true) :
    (decodeAlu w regForm immForm).wf = true := by
  unfold decodeAlu
  split
  · exact himm ..
  · exact hreg ..

theorem wf_decodeJsr (w : Word) : (decodeJsr w).wf = true := by
  unfold decodeJsr; split <;> rfl

/-- JMP with BaseR = 111 decodes to RET (43_control_transfer R107). -/
theorem wf_decodeJmp (w : Word) : (decodeJmp w).wf = true := by
  unfold decodeJmp
  split
  case isTrue => rfl
  case isFalse h => exact decide_eq_true h

/-- TRAP with a named vector decodes to the routine (R64). -/
theorem wf_decodeTrap (w : Word) : (decodeTrap w).wf = true := by
  unfold decodeTrap
  split
  case h_7 hv => rw [Instr.wf, (TrapRoutine.ofVector_none_iff _).mp hv]; rfl
  all_goals rfl

theorem wf_decode (w : Word) : (decode w).wf = true := by
  unfold decode
  cases Opcode.ofBits (field w 12 4) with
  | add | and => exact wf_decodeAlu w (fun _ _ _ _ => rfl) fun _ _ _ => rfl
  | jsr => exact wf_decodeJsr w
  | jmp => exact wf_decodeJmp w
  | trap => exact wf_decodeTrap w
  | br | ld | st | ldr | str | reserved8 | not | ldi | sti | reserved13 | lea => rfl

namespace Machine

/-! ### Don't-care bits -/

/-- The words differ in bits of `m` only. -/
def AgreeOff (m v w : Word) : Prop := (v ^^^ w) &&& ~~~m = 0#16

theorem AgreeOff.bit_congr {m v w : Word} (h : AgreeOff m v w) {i : Nat} (hm : m.getLsbD i = false) :
    w.getLsbD i = v.getLsbD i := by
  by_cases hi : i < 16
  · have hbit : ((v ^^^ w) &&& ~~~m).getLsbD i = false := (congrArg (BitVec.getLsbD · i) h).trans BitVec.getLsbD_zero
    rw [BitVec.getLsbD_and, BitVec.getLsbD_not, BitVec.getLsbD_xor, hm] at hbit
    exact .symm (by simpa [hi, -BitVec.getLsbD_eq_getElem] using hbit)
  · rw [BitVec.getLsbD_of_ge w i (by omega), BitVec.getLsbD_of_ge v i (by omega)]

theorem AgreeOff.field_congr {m v w : Word} (h : AgreeOff m v w) {lo len : Nat} (hm : field m lo len = 0#len) :
    field w lo len = field v lo len := by
  refine field_ext fun i hi => ?_
  have hmi : m.getLsbD (lo + i) = false := by
    rw [← getElem_field m lo len i hi, hm, BitVec.getElem_zero]
  rw [h.bit_congr hmi, getLsbD_field, decide_eq_true hi, Bool.true_and]

theorem AgreeOff.drOf_congr {m v w : Word} (h : AgreeOff m v w) (hm : field m 9 3 = 0#3) : drOf w = drOf v :=
  congrArg Reg.ofBits (h.field_congr hm)

theorem AgreeOff.baseOf_congr {m v w : Word} (h : AgreeOff m v w) (hm : field m 6 3 = 0#3) : baseOf w = baseOf v :=
  congrArg Reg.ofBits (h.field_congr hm)

theorem AgreeOff.sr2Of_congr {m v w : Word} (h : AgreeOff m v w) (hm : field m 0 3 = 0#3) : sr2Of w = sr2Of v :=
  congrArg Reg.ofBits (h.field_congr hm)

theorem AgreeOff.eq {v w : Word} (h : AgreeOff 0#16 v w) : w = v :=
  BitVec.eq_of_getLsbD_eq fun _ _ => h.bit_congr BitVec.getLsbD_zero

theorem canonical_decodeAlu_congr {v w : Word} {regForm : Reg → Reg → BitVec 2 → Reg → Instr}
    {immForm : Reg → Reg → BitVec 5 → Instr} (hreg : ∀ dr sr1 dc sr2, dontCareMask (regForm dr sr1 dc sr2) = 0x0018#16)
    (himm : ∀ dr sr1 imm5, dontCareMask (immForm dr sr1 imm5) = 0x0000#16)
    (hcan : ∀ dr sr1 dc dc' sr2, (regForm dr sr1 dc sr2).canonical = (regForm dr sr1 dc' sr2).canonical)
    (h : AgreeOff (dontCareMask (decodeAlu v regForm immForm)) v w) :
    (decodeAlu w regForm immForm).canonical = (decodeAlu v regForm immForm).canonical := by
  unfold decodeAlu at h ⊢
  split at h
  case isTrue hb => rw [himm] at h; rw [h.eq, if_pos hb]
  case isFalse hb =>
    rw [hreg] at h
    have h5 : bit w 5 = bit v 5 := h.bit_congr rfl
    rw [h5, if_neg hb, if_neg hb, h.drOf_congr (by decide), h.baseOf_congr (by decide), h.sr2Of_congr (by decide)]
    exact hcan ..

theorem canonical_decodeJsr_congr {v w : Word} (h : AgreeOff (dontCareMask (decodeJsr v)) v w) :
    (decodeJsr w).canonical = (decodeJsr v).canonical := by
  unfold decodeJsr at h ⊢
  split at h
  case isTrue hb => rw [AgreeOff.eq h, if_pos hb]
  case isFalse hb =>
    replace h : AgreeOff 0x063F#16 v w := h
    have h11 : bit w 11 = bit v 11 := h.bit_congr rfl
    rw [h11, if_neg hb, if_neg hb, h.baseOf_congr (by decide)]
    rfl

theorem canonical_decodeJmp_congr {v w : Word} (h : AgreeOff 0x0E3F#16 v w) :
    (decodeJmp w).canonical = (decodeJmp v).canonical := by
  unfold decodeJmp
  rw [h.baseOf_congr (by decide)]
  split <;> rfl

theorem canonical_decodeTrap_congr {v w : Word} (h : AgreeOff 0x0F00#16 v w) :
    (decodeTrap w).canonical = (decodeTrap v).canonical := by
  unfold decodeTrap
  rw [h.field_congr (lo := 0) (len := 8) (by decide)]
  split <;> rfl

theorem dontCareMask_decodeJmp (w : Word) : dontCareMask (decodeJmp w) = 0x0E3F#16 := by
  unfold decodeJmp; split <;> rfl

theorem dontCareMask_decodeTrap (w : Word) : dontCareMask (decodeTrap w) = 0x0F00#16 := by
  unfold decodeTrap; split <;> rfl

theorem field_dontCareMask_opcode (i : Instr) : field (dontCareMask i) 12 4 = 0#4 := by
  unfold dontCareMask; split <;> decide

/-- Words that differ in don't-care bits only decode to one canonical form (30_encoding R62, R63). -/
theorem canonical_decode_congr {v w : Word} (h : AgreeOff (dontCareMask (decode v)) v w) :
    (decode w).canonical = (decode v).canonical := by
  have hop := h.field_congr (field_dontCareMask_opcode _)
  unfold decode at h ⊢
  rw [hop]
  cases hv : Opcode.ofBits (field v 12 4) <;> rw [hv] at h
  case add => exact canonical_decodeAlu_congr (fun _ _ _ _ => rfl) (fun _ _ _ => rfl) (fun _ _ _ _ _ => rfl) h
  case and => exact canonical_decodeAlu_congr (fun _ _ _ _ => rfl) (fun _ _ _ => rfl) (fun _ _ _ _ _ => rfl) h
  case jsr => exact canonical_decodeJsr_congr h
  case jmp => exact canonical_decodeJmp_congr (dontCareMask_decodeJmp v ▸ h)
  case trap => exact canonical_decodeTrap_congr (dontCareMask_decodeTrap v ▸ h)
  case not =>
    replace h : AgreeOff 0x003F#16 v w := h
    dsimp only
    rw [h.drOf_congr (by decide), h.baseOf_congr (by decide)]
    rfl
  all_goals rw [AgreeOff.eq h]

theorem exec_canonical (i : Instr) (s : State) : exec i.canonical s = exec i s := by
  cases i <;> rfl

/-! ### Assembled offsets -/

/-- The field an assembler writes for a label is the one offset that reaches it (30_encoding R69). -/
theorem assembleOffset_eq_some_iff {n : Nat} (h1 : 1 ≤ n) (h16 : n ≤ 16) (label addr : Word) (o : BitVec n) :
    assembleOffset n label addr = some o ↔ addr + 1#16 + o.signExtend 16 = label := by
  have htrunc : (sext o).setWidth n = o := by
    refine BitVec.eq_of_getLsbD_eq fun i hi => ?_
    rw [BitVec.getLsbD_setWidth, sext_getLsbD_below h1 o hi (by omega), decide_eq_true hi, Bool.true_and]
  unfold assembleOffset
  rw [Option.ite_none_right_eq_some, Option.some_inj, ← sext_eq_signExtend h1]
  constructor
  · rintro ⟨hfit, rfl⟩
    rw [hfit]
    exact add_sub_cancel _ _
  · rintro rfl
    rw [add_sub_cancel_left, htrunc]
    exact ⟨rfl, rfl⟩

/-! ### The obligations of 30_encoding -/

/-- Settles O1: each field of the instruction's format is read back from its place. -/
theorem encodedInstructionsDecodeBack : Obligations.EncodedInstructionsDecodeBack :=
  fun _ h => decode_encode h

/-- Settles O2: the fields the decoder reads are adjacent and together the whole word. -/
theorem reencodingRecoversEveryWord : Obligations.ReencodingRecoversEveryWord :=
  encode_decode

/-- Settles O3: the word is the encoding of what it decodes to, which has its row's fixed bits. -/
theorem everyWordDecodesIntoItsRow : Obligations.EveryWordDecodesIntoItsRow := by
  intro w
  have hrow := encode_rowBits (decode w)
  rw [encode_decode] at hrow
  exact ⟨wf_decode w, hrow⟩

/-- Settles O4: the opcode is read from the top four bits, one variant for each of their sixteen values. -/
theorem opcodeIsTheTopFourBits : Obligations.OpcodeIsTheTopFourBits := by
  refine ⟨fun v w => ?_, fun w => ?_, fun w => ?_⟩
  · rw [opcode_decode, opcode_decode, Opcode.ofBits_inj, field_opcode_eq_iff, field_opcode_toNat]
  · rw [opcode_decode, Opcode.ofBits_eq_reserved8, field_opcode_eq_iff]; rfl
  · rw [opcode_decode, Opcode.ofBits_eq_reserved13, field_opcode_eq_iff]; rfl

/-- Settles O6: the two words decode to one canonical form, and an instruction runs as its canonical form does. -/
theorem dontCareBitsAreIgnored : Obligations.DontCareBitsAreIgnored := by
  intro v w s h
  rw [← exec_canonical (decode w), canonical_decode_congr h, exec_canonical]

/-- Settles O9: the two widths of `assembleOffset_eq_some_iff`. -/
theorem assembledOffsetsReachTheirLabels : Obligations.AssembledOffsetsReachTheirLabels :=
  ⟨assembleOffset_eq_some_iff (by decide) (by decide), assembleOffset_eq_some_iff (by decide) (by decide)⟩

end Machine

end Sys2Proof
end

section
/-!
SUPPORT. The execution loop (spec 40_execution_loop): the decoder of a word whose opcode or vector is known, how an
instruction ends a run (`EndCause`, the run state's part of `ExecEffect`), which instructions replace the incremented PC, and
what the handlers outside TRAP do not read.
-/

namespace Sys2Proof

/-! ### Words of a known opcode -/

theorem field_and (a b : Word) (lo len : Nat) : field (a &&& b) lo len = field a lo len &&& field b lo len :=
  BitVec.extractLsb'_and

/-- A field all of whose bits a mask keeps is read off the masked word. -/
theorem field_of_and_mask {w m x : Word} {lo len : Nat} (hm : field m lo len = BitVec.allOnes len) (h : w &&& m = x) :
    field w lo len = field x lo len := by
  rw [← h, field_and, hm, BitVec.and_allOnes]

/-- Opcode 8 keeps its payload (40_execution_loop R74). -/
theorem decode_reserved8 {w : Word} (h : field w 12 4 = 8#4) : decode w = .reserved8 (field w 0 12) := by
  unfold decode; rw [h]; rfl

/-- Opcode 13 keeps its payload (40_execution_loop R74). -/
theorem decode_reserved13 {w : Word} (h : field w 12 4 = 13#4) : decode w = .reserved13 (field w 0 12) := by
  unfold decode; rw [h]; rfl

/-- Opcode 15 goes to the trap decoder. -/
theorem decode_trap {w : Word} (h : field w 12 4 = 15#4) : decode w = decodeTrap w := by
  unfold decode; rw [h]; rfl

/-- The constructor of a routine's own instruction, with the don't-care bits it keeps (30_encoding R64). -/
def TrapRoutine.instr : TrapRoutine → BitVec 4 → Instr
  | .getc => .getc
  | .out => .out
  | .puts => .puts
  | .in_ => .in_
  | .putsp => .putsp
  | .halt => .halt

/-- A decoded TRAP with a named vector is the routine's instruction (30_encoding R64). -/
theorem decode_of_named_vector {w : Word} {v : BitVec 8} {q : TrapRoutine} (h : trapVector (decode w) = some v)
    (hq : TrapRoutine.ofVector v = some q) : decode w = q.instr (field w 8 4) := by
  obtain ⟨hop, rfl⟩ := trapVector_decode h
  rw [decode_trap hop]
  unfold decodeTrap
  rw [hq]
  cases q <;> rfl

/-- A decoded TRAP with any other vector is TRAP (44_trap R122). -/
theorem decode_of_unknown_vector {w : Word} {v : BitVec 8} (h : trapVector (decode w) = some v)
    (hq : TrapRoutine.ofVector v = none) : decode w = .trap (field w 8 4) v := by
  obtain ⟨hop, rfl⟩ := trapVector_decode h
  rw [decode_trap hop]
  unfold decodeTrap
  rw [hq]

namespace Machine

/-! ### The end of a run -/

/-- Raising an error writes the run state alone (60_exceptions R129). -/
theorem State.raise_onlyRunState (s : State) (k : ErrorKind) : OnlyRunState s (s.raise k) :=
  ⟨fun _ _ => rfl, fun _ => rfl, ⟨rfl, rfl⟩, rfl, rfl, rfl, rfl, rfl⟩

/-- The oldest answer, if there is one, says that the input has ended or failed (44_trap R115). -/
def State.InputFails (s : State) : Prop := s.input.head? = some .endOfStream ∨ s.input.head? = some .failure

/-- The run states in which the handler of `i` can end the run from the state `s` after the fetch, with what `i` and the
input must be for each (40_execution_loop R76, R78; 60_exceptions R131, R132). -/
inductive EndCause (i : Instr) (s : State) : RunState → Prop where
  /-- HALT's vector (44_trap R121) -/
  | halt {v : BitVec 8} (hi : trapVector i = some v) (hv : TrapRoutine.ofVector v = some .halt) : EndCause i s .halted
  /-- a reserved opcode (40_execution_loop R74) -/
  | invalidOpcode (hi : i.opcode = .reserved8 ∨ i.opcode = .reserved13) :
    EndCause i s (.error ⟨.invalidOpcode, s.pc - 1#16, s.ir⟩)
  /-- GETC's or IN's vector, with an input that fails (44_trap R115) -/
  | ioFailure {v : BitVec 8} (hi : trapVector i = some v)
    (hv : TrapRoutine.ofVector v = some .getc ∨ TrapRoutine.ofVector v = some .in_) (hin : s.InputFails) :
    EndCause i s (.error ⟨.ioFailure, s.pc - 1#16, s.ir⟩)
  /-- a vector of no routine (44_trap R122) -/
  | invalidTrapVector {v : BitVec 8} (hi : trapVector i = some v) (hv : TrapRoutine.ofVector v = none) :
    EndCause i s (.error ⟨.invalidTrapVector, s.pc - 1#16, s.ir⟩)

/-- An input request ends the run only with IOFailure, when the input fails (44_trap R115), if what follows it does not. -/
theorem State.awaitByte_runState (s : State) (h : Hold) {f : Byte → State → State}
    (hf : ∀ b u, (f b u).runState = u.runState) :
    (s.awaitByte h f).runState = s.runState ∨
      s.InputFails ∧ (s.awaitByte h f).runState = .error ⟨.ioFailure, s.pc - 1#16, s.ir⟩ := by
  unfold State.awaitByte State.InputFails
  split
  case h_1 => exact .inl rfl
  case h_2 => exact .inl (hf ..)
  case h_3 hin => exact .inr ⟨.inl (by rw [hin]; rfl), rfl⟩
  case h_4 hin => exact .inr ⟨.inr (by rw [hin]; rfl), rfl⟩

/-- A TRAP leaves the run state alone or ends the run by the cause its vector names (44_trap R116 to R122). -/
theorem routineOf_runState {i : Instr} {v : BitVec 8} {s : State} (hi : trapVector i = some v) :
    (routineOf v s).runState = s.runState ∨ EndCause i s (routineOf v s).runState := by
  unfold routineOf
  split
  case h_1 hv =>
    refine (s.awaitByte_runState .getc (f := finishGetc) fun _ _ => rfl).imp_right ?_
    rintro ⟨hin, hr⟩
    exact hr ▸ .ioFailure hi (.inl hv) hin
  case h_4 hv =>
    refine ((s.outBytes s.config.inPrompt).awaitByte_runState .in_ (f := finishIn) fun _ _ => rfl).imp_right ?_
    rintro ⟨hin, hr⟩
    exact hr ▸ .ioFailure hi (.inr hv) hin
  case h_6 hv => exact .inr (.halt hi hv)
  case h_7 hv => exact .inr (.invalidTrapVector hi hv)
  all_goals exact .inl rfl

/-- The link is no part of a cause. -/
theorem EndCause.of_trapLink {i : Instr} {s : State} {q : RunState} (h : EndCause i s.trapLink q) : EndCause i s q := by
  cases h with
  | halt hi hv => exact .halt hi hv
  | invalidOpcode hi => rw [State.trapLink_pc, State.trapLink_ir]; exact .invalidOpcode hi
  | ioFailure hi hv hin =>
    rw [State.InputFails, State.trapLink_input] at hin
    rw [State.trapLink_pc, State.trapLink_ir]; exact .ioFailure hi hv hin
  | invalidTrapVector hi hv => rw [State.trapLink_pc, State.trapLink_ir]; exact .invalidTrapVector hi hv

/-- An instruction leaves the run state alone, or ends the run by one of the causes (40_execution_loop R76, R78). -/
theorem exec_runState {i : Instr} {s t : State} (h : exec i s = .next t) :
    t.runState = s.runState ∨ EndCause i s t.runState := by
  cases effect_of_exec h with
  | result | store | jump | call => exact .inl rfl
  | reserved hi => exact .inr (.invalidOpcode hi)
  | trap hi =>
    rw [← s.trapLink_runState]
    exact (routineOf_runState hi).imp_right EndCause.of_trapLink

/-- A step in progress goes on Running or ends in an error (44_trap R115, R123). -/
theorem resumeStep_runState_ne_halted {k : Hold} {s t : State} (hr : s.runState = .running)
    (h : resumeStep k s = .next t) : t.runState ≠ .halted := by
  have await {k : Hold} {f : Byte → State → State} (hf : ∀ b u, (f b u).runState = u.runState) :
      (s.awaitByte k f).runState ≠ .halted := by
    rcases s.awaitByte_runState k hf with hq | ⟨-, hq⟩ <;> simp [hq, hr]
  cases k with
  | getc | in_ => cases h; exact await fun _ _ => rfl
  | puts | putsp => cases h; exact hr.trans_ne RunState.noConfusion

/-- The cause of a step that leaves Running when it fetched (40_execution_loop R75). -/
theorem endCause_of_step {s t : State} (hs : Ready s) (h : step s = .next t) (ht : Ended t) :
    EndCause (decode (s.readMem s.pc)) s.fetch t.runState := by
  rw [step_ready hs] at h
  exact (exec_runState h).resolve_left fun hq => ht (hq.trans hs.1)

/-- A run from an ended state stays where it is (40_execution_loop R79). -/
theorem stepN_ended {s : State} (h : Ended s) (n : Nat) : stepN n s = .next s := by
  induction n with
  | zero => rfl
  | succ n ih => rw [stepN_succ, step_ended h]; exact ih

/-- `run` from an ended state reports its status (R80). -/
theorem run_ended {s : State} (h : Ended s) (fuel : Nat) : run fuel s = some s.runState := by
  unfold run
  split
  case h_3 hr => exact absurd hr h
  all_goals rfl

/-! ### PC -/

theorem writesPc_of_jsr {i : Instr} (h : i.opcode = .jsr) : writesPc i = true := by
  cases i <;> cases h <;> rfl

theorem writesPc_of_trapVector {i : Instr} {v : BitVec 8} (h : trapVector i = some v) : writesPc i = false := by
  cases i <;> cases h <;> rfl

theorem writesPc_of_reserved {i : Instr} (h : i.opcode = .reserved8 ∨ i.opcode = .reserved13) : writesPc i = false := by
  rcases h with h | h <;> cases i <;> cases h <;> rfl

/-- An instruction that ends the run is no control transfer. -/
theorem EndCause.writesPc {i : Instr} {s : State} {q : RunState} (h : EndCause i s q) : writesPc i = false := by
  cases h with
  | invalidOpcode hi => exact writesPc_of_reserved hi
  | halt hi | ioFailure hi | invalidTrapVector hi => exact writesPc_of_trapVector hi

/-- Every instruction outside `writesPc` leaves PC alone (40_execution_loop R71). -/
theorem exec_pc {i : Instr} {s t : State} (h : exec i s = .next t) (hi : writesPc i = false) : t.pc = s.pc := by
  cases effect_of_exec h with
  | result | store | reserved => rfl
  | jump _ hw => exact absurd hw (by simp [hi])
  | call _ hop => exact absurd (writesPc_of_jsr hop) (by simp [hi])
  | trap =>
    obtain ⟨hpc, -⟩ := routineOf_frame _ s.trapLink
    rw [hpc, State.trapLink_pc]

/-- A step that fetched an instruction which is no control transfer leaves the incremented PC (R71). -/
theorem step_pc {s t : State} (hs : Ready s) (h : step s = .next t) (hi : writesPc (decode (s.readMem s.pc)) = false) :
    t.pc = s.pc + 1#16 := by
  rw [step_ready hs] at h
  exact exec_pc h hi

/-! ### withFetchWord -/

theorem tableWord_toNat (w : Word) : tableWord 16 w.toNat = w := by
  rw [tableWord, Nat.mod_eq_of_lt w.isLt, BitVec.ofNat_toNat, BitVec.setWidth_eq]

theorem fetch_withFetchWord_ir (s : State) (w : Word) : (s.withFetchWord 16 w.toNat).fetch.ir = w :=
  (Memory.read_write_same ..).trans (tableWord_toNat w)

/-! ### The obligations of 40_execution_loop -/

/-- Settles O17: a step from an ended state does nothing, and `run` looks at the run state before it steps. -/
theorem stoppedMachineStays : Obligations.StoppedMachineStays :=
  fun _ h => ⟨stepN_ended h, run_ended h⟩

/-- Settles O18: a step in progress does not halt, and of the causes only HALT's vector does. -/
theorem haltedOnlyByHalt : Obligations.HaltedOnlyByHalt := by
  intro s t hr h ht
  rcases step_cases h with ⟨hs, -⟩ | ⟨k, -, -, hk⟩ | rfl
  · have hcause := endCause_of_step hs h (ht.trans_ne RunState.noConfusion)
    rw [ht] at hcause
    cases hcause with
    | halt hi hv => exact ⟨hs.2, _, decode_of_named_vector hi hv⟩
  · exact absurd ht (resumeStep_runState_ne_halted hr hk)
  · exact absurd (hr.symm.trans ht) RunState.noConfusion

/-- Settles O19: the cause of each kind, with the record of the latch and of the incremented PC. -/
theorem errorsHaveTheirCauseAndRecord : Obligations.ErrorsHaveTheirCauseAndRecord := by
  intro s t e hs h ht
  have hcause := endCause_of_step hs h (ht.trans_ne RunState.noConfusion)
  have hpc : t.pc = s.pc + 1#16 := step_pc hs h hcause.writesPc
  have haddr : s.fetch.pc - 1#16 = s.pc := add_sub_cancel_right s.pc 1#16
  rw [ht] at hcause
  cases hcause with
  | invalidOpcode hi =>
    rw [opcode_decode, Opcode.ofBits_eq_reserved8, Opcode.ofBits_eq_reserved13] at hi
    exact ⟨haddr, rfl, hpc, _, hi.imp decode_reserved8 decode_reserved13⟩
  | ioFailure hi hv hin =>
    exact ⟨haddr, rfl, hpc, ⟨_, hv.imp (decode_of_named_vector hi) (decode_of_named_vector hi)⟩, hin⟩
  | invalidTrapVector hi hv => exact ⟨haddr, rfl, hpc, _, _, decode_of_unknown_vector hi hv⟩

/-- Settles O20: the control transfers are those of `writesPc`, a BR not taken writes back PC, and no cause of an error is
a control transfer. -/
theorem onlyControlTransfersReplaceTheIncrementedPc : Obligations.OnlyControlTransfersReplaceTheIncrementedPc := by
  intro s t hs h
  refine ⟨step_pc hs h, fun n z p off9 hi hbr => ?_, fun e he => ?_⟩
  · rw [step_ready hs, State.latched, State.fetch_ir, ← State.readMem_eq, hi] at h
    change execBr n z p off9 s.fetch = .next t at h
    rw [execBr_eq_setPc, State.fetch_cond, hbr] at h
    cases h
    rfl
  · exact step_pc hs h (endCause_of_step hs h (he.trans_ne RunState.noConfusion)).writesPc

/-- Settles O14: the fetch's fields, and `step_ready`. -/
theorem stepRunsTheDecodedInstruction : Obligations.StepRunsTheDecodedInstruction := by
  rintro s i hs rfl -
  exact ⟨step_ready hs, rfl, BitVec.toNat_add .., fun _ _ => rfl, fun _ => rfl, ⟨rfl, rfl⟩, rfl, rfl, rfl, rfl⟩

/-- Settles O15: the state after the fetch of the placed word. -/
theorem placedWordRunsNext : Obligations.PlacedWordRunsNext := by
  intro s w
  have hready : Ready (s.withFetchWord 16 w.toNat) := ⟨rfl, rfl⟩
  have hir := fetch_withFetchWord_ir s w
  refine ⟨(s.withFetchWord 16 w.toNat).fetch, hready, rfl, hir, fun _ _ => rfl, fun _ hb => Memory.read_write_other _ _ hb,
    ⟨rfl, rfl⟩, rfl, rfl, ?_⟩
  rw [step_ready hready, State.latched, hir]

/-- Settles O25, handler by handler: each answer is written with the registers, PC, COND and memory alone. -/
theorem nonTrapHandlersArePure : Obligations.NonTrapHandlersArePure := by
  intro i s xs ys h c hi
  cases i with
  | br => exact ⟨_, execBr_eq_setPc .., execBr_eq_setPc ..⟩
  | addReg | addImm | andReg | andImm | not | ld | ldi | ldr | lea => exact ⟨_, rfl, rfl⟩
  | st | sti | str | jmp | ret | jsr | jsrr | reserved8 | reserved13 => exact ⟨_, rfl, rfl⟩
  | trap | getc | out | puts | in_ | putsp | halt => exact absurd rfl (of_decide_eq_false hi)

/-- Settles O48: each raises the error and no more, and its words are those whose top four bits are 8 or 13. -/
theorem reservedOpcodesRaiseInvalidOpcode : Obligations.ReservedOpcodesRaiseInvalidOpcode := by
  refine ⟨fun _ s => ⟨⟨_, rfl, rfl, s.raise_onlyRunState _⟩, _, rfl, rfl, s.raise_onlyRunState _⟩, fun w h => ?_,
    fun w h => ?_⟩
  · exact decode_reserved8 ((field_of_and_mask (by decide) h).trans (by decide))
  · exact decode_reserved13 ((field_of_and_mask (by decide) h).trans (by decide))

end Machine

end Sys2Proof
end

section
/-!
SUPPORT. The arithmetic and logic instructions (spec 41_arith_logic): what the result port leaves in DR, in COND and
everywhere else, bit `k` of a sign-extended field, and the decoder of a word of ADD, AND or NOT.
-/

namespace Sys2Proof

/-! ### Words of ADD, AND and NOT -/

theorem bit_and (a b : Word) (i : Nat) : bit (a &&& b) i = (bit a i && bit b i) := BitVec.getLsbD_and

/-- A bit a mask keeps is read off the masked word. -/
theorem bit_of_and_mask {w m x : Word} {i : Nat} (hm : bit m i = true) (h : w &&& m = x) : bit w i = bit x i := by
  rw [← h, bit_and, hm, Bool.and_true]

theorem decode_add {w : Word} (h : field w 12 4 = 1#4) : decode w = decodeAlu w .addReg .addImm := by
  unfold decode; rw [h]; rfl

theorem decode_and {w : Word} (h : field w 12 4 = 5#4) : decode w = decodeAlu w .andReg .andImm := by
  unfold decode; rw [h]; rfl

theorem decode_not {w : Word} (h : field w 12 4 = 9#4) : decode w = .not (drOf w) (baseOf w) (field w 0 6) := by
  unfold decode; rw [h]; rfl

section
variable {w : Word} {regForm : Reg → Reg → BitVec 2 → Reg → Instr} {immForm : Reg → Reg → BitVec 5 → Instr}

/-- `w[5]` = 0 is the register form (30_encoding R61). -/
theorem decodeAlu_of_bit_clear (h : bit w 5 = false) :
    decodeAlu w regForm immForm = regForm (drOf w) (baseOf w) (field w 3 2) (sr2Of w) :=
  if_neg (Bool.eq_false_iff.mp h)

/-- `w[5]` = 1 is the immediate form (30_encoding R61). -/
theorem decodeAlu_of_bit_set (h : bit w 5 = true) :
    decodeAlu w regForm immForm = immForm (drOf w) (baseOf w) (field w 0 5) :=
  if_pos h

end

namespace Machine

/-! ### Rows -/

section
variable {op : BitVec 4} {x : Word} {regForm : Reg → Reg → BitVec 2 → Reg → Instr} {immForm : Reg → Reg → BitVec 5 → Instr}

/-- A row of the register form, from the opcode and `w[5]` = 0 (30_encoding R61). -/
theorem rowDecodes_register (hdec : ∀ {w}, field w 12 4 = op → decode w = decodeAlu w regForm immForm)
    (hop : field x 12 4 = op) (h5 : bit x 5 = false) :
    RowDecodes 0xF020#16 x fun w => regForm (regField w 9) (regField w 6) (w.extractLsb' 3 2) (regField w 0) := by
  intro w h
  rw [hdec ((field_of_and_mask (by decide) h).trans hop), decodeAlu_of_bit_clear ((bit_of_and_mask rfl h).trans h5)]
  rfl

/-- A row of the immediate form, from the opcode and `w[5]` = 1 (30_encoding R61). -/
theorem rowDecodes_immediate (hdec : ∀ {w}, field w 12 4 = op → decode w = decodeAlu w regForm immForm)
    (hop : field x 12 4 = op) (h5 : bit x 5 = true) :
    RowDecodes 0xF020#16 x fun w => immForm (regField w 9) (regField w 6) (w.extractLsb' 0 5) := by
  intro w h
  rw [hdec ((field_of_and_mask (by decide) h).trans hop), decodeAlu_of_bit_set ((bit_of_and_mask rfl h).trans h5)]
  rfl

end

/-! ### The result port -/

@[simp] theorem State.writeResult_reg_same (s : State) (dr : Reg) (v : Word) : (s.writeResult dr v).reg dr = v :=
  s.regs.get_set_same dr v

/-- COND after a result is `setcc` of what DR then holds (41_arith_logic R87). -/
theorem State.writeResult_cond_eq_condOf (s : State) (dr : Reg) (v : Word) :
    (s.writeResult dr v).cond = condOf ((s.writeResult dr v).reg dr) := by
  rw [State.writeResult_cond, State.writeResult_reg_same]

/-- COND after a result says in which range the value lies that DR then holds (41_arith_logic R86). -/
theorem State.writeResult_condSays (s : State) (dr : Reg) (v : Word) :
    CondSays (s.writeResult dr v).cond ((s.writeResult dr v).reg dr) := by
  rw [State.writeResult_cond_eq_condOf]
  exact condOf_says _

/-- A result changes DR and COND alone. -/
theorem State.writeResult_onlyRegAndCond (s : State) (dr : Reg) (v : Word) : OnlyRegAndCond dr s (s.writeResult dr v) :=
  ⟨fun _ hr => RegFile.get_set_other _ v (List.ne_of_not_mem_cons hr), fun _ => rfl, ⟨rfl, rfl⟩, ⟨rfl, rfl, rfl, rfl⟩, rfl⟩

/-! ### The immediate operand -/

/-- A sign-extended field keeps its own bits and repeats the last of them above (00_scope R8). -/
theorem sext_getLsbD {n : Nat} (h1 : 1 ≤ n) (v : BitVec n) {k : Nat} (h16 : k < 16) :
    (sext v).getLsbD k = v.getLsbD (min k (n - 1)) := by
  rcases Nat.lt_or_ge k n with hk | hk
  · rw [sext_getLsbD_below h1 v hk h16, min_eq_left (by omega)]
  · rw [sext_getLsbD_above h1 v hk h16, min_eq_right (by omega)]

/-! ### The obligations of 41_arith_logic -/

/-- Settles O31: the ALU's sum goes through the result port, and the row fixes the opcode and `w[5]` = 0. -/
theorem addRegisterForm : Obligations.AddRegisterForm := by
  refine ⟨fun dr sr1 sr2 dc s => ⟨_, rfl, ?_, s.writeResult_cond_eq_condOf .., s.writeResult_onlyRegAndCond ..⟩,
    rowDecodes_register decode_add (by decide) rfl⟩
  rw [State.writeResult_reg_same]
  exact BitVec.toNat_add ..

/-- Settles O32: the sum is a base plus a sign-extended field, and the row fixes the opcode and `w[5]` = 1. -/
theorem addImmediateForm : Obligations.AddImmediateForm := by
  refine ⟨fun dr sr1 imm5 s => ⟨_, rfl, ?_, s.writeResult_cond_eq_condOf .., s.writeResult_onlyRegAndCond ..⟩,
    rowDecodes_immediate decode_add (by decide) rfl⟩
  rw [State.writeResult_reg_same]
  exact toNat_add_sext (by decide) (by decide) (s.reg sr1) imm5

/-- Settles O33: the ALU's AND is bitwise, and the row fixes the opcode and `w[5]` = 0. -/
theorem andRegisterForm : Obligations.AndRegisterForm := by
  refine ⟨fun dr sr1 sr2 dc s => ⟨_, rfl, fun k _ => ?_, s.writeResult_condSays .., s.writeResult_onlyRegAndCond ..⟩,
    rowDecodes_register decode_and (by decide) rfl⟩
  rw [State.writeResult_reg_same]
  exact BitVec.getLsbD_and

/-- Settles O34: the ALU's AND is bitwise, bit `k` of the operand is `sext_getLsbD`, and the row fixes the opcode and
`w[5]` = 1. -/
theorem andImmediateForm : Obligations.AndImmediateForm := by
  refine ⟨fun dr sr1 imm5 s => ⟨_, rfl, fun k hk => ?_, s.writeResult_condSays .., s.writeResult_onlyRegAndCond ..⟩,
    rowDecodes_immediate decode_and (by decide) rfl⟩
  rw [State.writeResult_reg_same, alu, BitVec.getLsbD_and, immOperand, sext_getLsbD (by decide) imm5 hk]

/-- Settles O35: the complement of a word is 65535 minus it, and the row fixes the opcode. -/
theorem notComplements : Obligations.NotComplements := by
  refine ⟨fun dr sr dc s => ⟨_, rfl, ?_, s.writeResult_condSays .., s.writeResult_onlyRegAndCond ..⟩, fun w h => ?_⟩
  · rw [State.writeResult_reg_same]
    exact BitVec.toNat_not
  · rw [decode_not ((field_of_and_mask (by decide) h).trans (by decide))]
    rfl

end Machine

end Sys2Proof
end

section
/-!
SUPPORT. The loads and the stores (spec 42_data_movement): the decoder of a word of each opcode, the rows whose mask is the
opcode alone, the addressing modes with the offset as `BitVec.signExtend`, the handlers written with the state's ports, and
what the memory port changes.
-/

namespace Sys2Proof

/-! ### Words of the loads and the stores -/

theorem decode_ld {w : Word} (h : field w 12 4 = 2#4) : decode w = .ld (drOf w) (field w 0 9) := by
  unfold decode; rw [h]; rfl

theorem decode_ldi {w : Word} (h : field w 12 4 = 10#4) : decode w = .ldi (drOf w) (field w 0 9) := by
  unfold decode; rw [h]; rfl

theorem decode_ldr {w : Word} (h : field w 12 4 = 6#4) : decode w = .ldr (drOf w) (baseOf w) (field w 0 6) := by
  unfold decode; rw [h]; rfl

theorem decode_lea {w : Word} (h : field w 12 4 = 14#4) : decode w = .lea (drOf w) (field w 0 9) := by
  unfold decode; rw [h]; rfl

theorem decode_st {w : Word} (h : field w 12 4 = 3#4) : decode w = .st (drOf w) (field w 0 9) := by
  unfold decode; rw [h]; rfl

theorem decode_sti {w : Word} (h : field w 12 4 = 11#4) : decode w = .sti (drOf w) (field w 0 9) := by
  unfold decode; rw [h]; rfl

theorem decode_str {w : Word} (h : field w 12 4 = 7#4) : decode w = .str (drOf w) (baseOf w) (field w 0 6) := by
  unfold decode; rw [h]; rfl

namespace Machine

/-- A row whose mask is the opcode alone, from the decoder of that opcode (30_encoding R60). -/
theorem rowDecodes_opcode {op : BitVec 4} {x : Word} {i : Word → Instr} (hdec : ∀ {w}, field w 12 4 = op → decode w = i w)
    (hop : field x 12 4 = op) : RowDecodes 0xF000#16 x i :=
  fun _ h => hdec ((field_of_and_mask (by decide) h).trans hop)

/-! ### Addressing modes -/

theorem pcRel9_eq (s : State) (off9 : BitVec 9) : pcRel9 s off9 = s.pc + off9.signExtend 16 := by
  rw [pcRel9, sext_eq_signExtend (by decide)]

theorem indirect9_eq (s : State) (off9 : BitVec 9) : indirect9 s off9 = s.readMem (s.pc + off9.signExtend 16) := by
  rw [indirect9, pcRel9_eq]

theorem baseOffset6_eq (s : State) (b : Reg) (off6 : BitVec 6) : baseOffset6 s b off6 = s.reg b + off6.signExtend 16 := by
  rw [baseOffset6, sext_eq_signExtend (by decide)]

/-! ### The handlers: one result or one write each, the ALU passing the word of a load through -/

theorem exec_ld (dr : Reg) (off9 : BitVec 9) (s : State) :
    exec (.ld dr off9) s = .next (s.writeResult dr (s.readMem (pcRel9 s off9))) := rfl

theorem exec_ldi (dr : Reg) (off9 : BitVec 9) (s : State) :
    exec (.ldi dr off9) s = .next (s.writeResult dr (s.readMem (indirect9 s off9))) := rfl

theorem exec_ldr (dr b : Reg) (off6 : BitVec 6) (s : State) :
    exec (.ldr dr b off6) s = .next (s.writeResult dr (s.readMem (baseOffset6 s b off6))) := rfl

theorem exec_lea (dr : Reg) (off9 : BitVec 9) (s : State) :
    exec (.lea dr off9) s = .next (s.writeResult dr (pcRel9 s off9)) := rfl

theorem exec_st (sr : Reg) (off9 : BitVec 9) (s : State) :
    exec (.st sr off9) s = .next (s.writeMem (pcRel9 s off9) (s.reg sr)) := rfl

theorem exec_sti (sr : Reg) (off9 : BitVec 9) (s : State) :
    exec (.sti sr off9) s = .next (s.writeMem (indirect9 s off9) (s.reg sr)) := rfl

theorem exec_str (sr b : Reg) (off6 : BitVec 6) (s : State) :
    exec (.str sr b off6) s = .next (s.writeMem (baseOffset6 s b off6) (s.reg sr)) := rfl

/-! ### The memory port -/

@[simp] theorem State.writeMem_readMem_same (s : State) (a v : Word) : (s.writeMem a v).readMem a = v :=
  s.mem.read_write_same a v

/-- A write changes the word at its address alone (20_memory R37). -/
theorem State.writeMem_onlyMemWord (s : State) (a v : Word) : OnlyMemWord a s (s.writeMem a v) :=
  ⟨fun _ _ => rfl, fun _ hb => s.mem.read_write_other v hb, ⟨rfl, rfl⟩, ⟨rfl, rfl, rfl, rfl⟩, rfl, rfl⟩

/-! ### The obligations of 42_data_movement -/

/-- Settles O36: the word at the PC-relative address goes through the result port, and the row fixes the opcode. -/
theorem ldLoadsPcRelative : Obligations.LdLoadsPcRelative := by
  refine ⟨fun dr off9 s => ⟨_, exec_ld .., ?_, s.writeResult_condSays .., s.writeResult_onlyRegAndCond ..⟩,
    rowDecodes_opcode decode_ld (by decide)⟩
  rw [State.writeResult_reg_same, pcRel9_eq]

/-- Settles O37: the word at the pointer goes through the result port, and the row fixes the opcode. -/
theorem ldiLoadsThroughThePointer : Obligations.LdiLoadsThroughThePointer := by
  refine ⟨fun dr off9 s => ⟨_, exec_ldi .., ?_, s.writeResult_cond_eq_condOf .., s.writeResult_onlyRegAndCond ..⟩,
    rowDecodes_opcode decode_ldi (by decide)⟩
  rw [State.writeResult_reg_same, indirect9_eq]

/-- Settles O38: the address is read off the state before the result port writes DR, so the base is the old one when DR is
BaseR; the row fixes the opcode. -/
theorem ldrLoadsBaseOffset : Obligations.LdrLoadsBaseOffset := by
  refine ⟨fun dr b off6 s => ⟨_, exec_ldr .., ?_, s.writeResult_condSays .., s.writeResult_onlyRegAndCond ..⟩,
    rowDecodes_opcode decode_ldr (by decide)⟩
  rw [State.writeResult_reg_same, baseOffset6_eq]

/-- Settles O39: the address itself goes through the result port; it is PC plus a sign-extended offset, so the signed sum
modulo 65536. The row fixes the opcode. -/
theorem leaGivesTheAddress : Obligations.LeaGivesTheAddress := by
  refine ⟨fun dr off9 s => ⟨_, exec_lea .., ?_, s.writeResult_condSays .., s.writeResult_onlyRegAndCond ..⟩,
    rowDecodes_opcode decode_lea (by decide)⟩
  rw [State.writeResult_reg_same]
  exact toNat_add_sext (by decide) (by decide) s.pc off9

/-- Settles O40: one write at the PC-relative address, and the row fixes the opcode. -/
theorem stStoresPcRelative : Obligations.StStoresPcRelative :=
  ⟨fun sr off9 s => ⟨_, exec_st .., s.writeMem_readMem_same .., pcRel9_eq s off9, s.writeMem_onlyMemWord ..⟩,
    rowDecodes_opcode decode_st (by decide)⟩

/-- Settles O41: one write at the pointer, which is read in the state before the write, and the row fixes the opcode. -/
theorem stiStoresThroughThePointer : Obligations.StiStoresThroughThePointer :=
  ⟨fun sr off9 s => ⟨_, exec_sti .., s.writeMem_readMem_same .., indirect9_eq s off9, s.writeMem_onlyMemWord ..⟩,
    rowDecodes_opcode decode_sti (by decide)⟩

/-- Settles O42: one write at base plus offset, and the row fixes the opcode. -/
theorem strStoresBaseOffset : Obligations.StrStoresBaseOffset :=
  ⟨fun sr b off6 s => ⟨_, exec_str .., s.writeMem_readMem_same .., baseOffset6_eq s b off6, s.writeMem_onlyMemWord ..⟩,
    rowDecodes_opcode decode_str (by decide)⟩

end Machine

end Sys2Proof
end

section
/-!
SUPPORT. The control transfers (spec 43_control_transfer): the decoder of a word of each opcode and form, what a write of PC
and the link change, the handlers written with the state's ports, and BR's test as the flags its mask names.
-/

namespace Sys2Proof

/-! ### Words of the control transfers -/

theorem decode_br {w : Word} (h : field w 12 4 = 0#4) : decode w = .br (bit w 11) (bit w 10) (bit w 9) (field w 0 9) := by
  unfold decode; rw [h]; rfl

theorem decode_jsr {w : Word} (h : field w 12 4 = 4#4) : decode w = decodeJsr w := by
  unfold decode; rw [h]; rfl

theorem decode_jmp {w : Word} (h : field w 12 4 = 12#4) : decode w = decodeJmp w := by
  unfold decode; rw [h]; rfl

/-- `w[11]` = 1 is JSR (30_encoding R61). -/
theorem decodeJsr_of_bit_set {w : Word} (h : bit w 11 = true) : decodeJsr w = .jsr (field w 0 11) := if_pos h

/-- `w[11]` = 0 is JSRR (30_encoding R61). -/
theorem decodeJsr_of_bit_clear {w : Word} (h : bit w 11 = false) :
    decodeJsr w = .jsrr (field w 9 2) (baseOf w) (field w 0 6) :=
  if_neg (Bool.eq_false_iff.mp h)

/-- `w[8:6]` = 111 is RET (43_control_transfer R107). -/
theorem decodeJmp_of_base_r7 {w : Word} (h : field w 6 3 = 7#3) : decodeJmp w = .ret (field w 9 3) (field w 0 6) :=
  if_pos ((Reg.ofBits_eq_r7 _).mpr h)

namespace Machine

/-! ### The link and the PC port -/

/-- What the link leaves in a register: the incremented PC in R7 (10_state R17). -/
theorem State.link_reg (s : State) (r : Reg) : s.link.reg r = if r = .r7 then s.pc else s.reg r :=
  s.regs.get_set .r7 r s.pc

/-- A jump changes PC alone. -/
theorem State.setPc_onlyPcAndRegs (s : State) (a : Word) : OnlyPcAndRegs [] s (s.setPc a) :=
  ⟨fun _ _ => rfl, fun _ => rfl, ⟨rfl, rfl⟩, ⟨rfl, rfl, rfl, rfl⟩, rfl⟩

/-- A call changes PC and R7 alone. -/
theorem State.link_setPc_onlyPcAndRegs (s : State) (a : Word) : OnlyPcAndRegs [.r7] s (s.link.setPc a) :=
  ⟨fun r hr => (s.link_reg r).trans (if_neg (List.ne_of_not_mem_cons hr)), fun _ => rfl, ⟨rfl, rfl⟩, ⟨rfl, rfl, rfl, rfl⟩,
    rfl⟩

theorem State.link_setPc_reg_r7 (s : State) (a : Word) : (s.link.setPc a).reg .r7 = s.pc :=
  (s.link_reg .r7).trans (if_pos rfl)

/-! ### The handlers: one write of PC each, after the link for the calls -/

theorem pcRel11_eq (s : State) (off11 : BitVec 11) : pcRel11 s off11 = s.pc + off11.signExtend 16 := by
  rw [pcRel11, sext_eq_signExtend (by decide)]

theorem exec_br (n z p : Bool) (off9 : BitVec 9) (s : State) :
    exec (.br n z p off9) s = .next (s.setPc (if branchTaken n z p s.cond then pcRel9 s off9 else s.pc)) :=
  execBr_eq_setPc ..

theorem exec_jmp (dcHi : BitVec 3) (b : Reg) (dcLo : BitVec 6) (s : State) :
    exec (.jmp dcHi b dcLo) s = .next (s.setPc (s.reg b)) := rfl

theorem exec_ret (dcHi : BitVec 3) (dcLo : BitVec 6) (s : State) :
    exec (.ret dcHi dcLo) s = .next (s.setPc (s.reg .r7)) := rfl

theorem exec_jsr (off11 : BitVec 11) (s : State) : exec (.jsr off11) s = .next (s.link.setPc (pcRel11 s off11)) := rfl

theorem exec_jsrr (dcHi : BitVec 2) (b : Reg) (dcLo : BitVec 6) (s : State) :
    exec (.jsrr dcHi b dcLo) s = .next (s.link.setPc (s.link.reg b)) := rfl

/-- Both constructors of opcode 12 run as the JMP of the word's fields: RET's base is R7 (43_control_transfer R107). -/
theorem exec_decodeJmp (w : Word) (s : State) :
    exec (decodeJmp w) s = exec (.jmp (field w 9 3) (baseOf w) (field w 0 6)) s := by
  unfold decodeJmp
  split
  case isTrue h => rw [exec_ret, exec_jmp, h]
  case isFalse => rfl

/-! ### BR's test -/

/-- The mask `n z p` meets a flag field when a flag it names is set: `n` names bit 2, `z` bit 1 and `p` bit 0. -/
theorem nzpMask_meets_iff (n z p : Bool) (flags : BitVec 3) : nzpMask n z p &&& flags ≠ 0#3 ↔
    ((n && flags.getLsbD 2) || (z && flags.getLsbD 1) || (p && flags.getLsbD 0)) = true := by
  revert n z p flags; decide

/-- BR is taken when a flag its mask names is set in COND (43_control_transfer R105). -/
theorem branchTaken_iff (n z p : Bool) (c : Word) : branchTaken n z p c = true ↔
    ((n && c.getLsbD 2) || (z && c.getLsbD 1) || (p && c.getLsbD 0)) = true := by
  unfold branchTaken
  rw [decide_eq_true_iff, nzpMask_meets_iff]
  simp [getElem_field]

/-! ### The obligations of 43_control_transfer -/

/-- Settles O43: BR writes PC alone, `branchTaken_iff` says with which value, and the row fixes the opcode. -/
theorem brTestsTheMaskAgainstCond : Obligations.BrTestsTheMaskAgainstCond := by
  refine ⟨fun n z p off9 s => ⟨_, exec_br .., ?_, s.setPc_onlyPcAndRegs _⟩, rowDecodes_opcode decode_br (by decide)⟩
  simp only [State.setPc_pc, branchTaken_iff, pcRel9_eq]

/-- Settles O44: JMP writes PC alone, and a word of opcode 12 decodes by `decodeJmp`, either constructor of which runs as
the JMP. -/
theorem jmpGoesToTheBaseRegister : Obligations.JmpGoesToTheBaseRegister := by
  refine ⟨fun dcHi b dcLo s => ⟨_, exec_jmp .., rfl, s.setPc_onlyPcAndRegs _⟩, fun w s h => ?_⟩
  rw [decode_jmp ((field_of_and_mask (by decide) h).trans (by decide))]
  exact exec_decodeJmp w s

/-- Settles O45: RET writes PC alone, and the row fixes the opcode and `w[8:6]` = 111. -/
theorem retGoesToR7 : Obligations.RetGoesToR7 := by
  refine ⟨fun dcHi dcLo s => ⟨_, exec_ret .., rfl, s.setPc_onlyPcAndRegs _⟩, fun w h => ?_⟩
  have hop : field w 12 4 = 12#4 := (field_of_and_mask (by decide) h).trans (by decide)
  have hbase : field w 6 3 = 7#3 := (field_of_and_mask (by decide) h).trans (by decide)
  rw [decode_jmp hop, decodeJmp_of_base_r7 hbase]
  rfl

/-- Settles O46: the link and then PC, from the same incremented PC; the row fixes the opcode and `w[11]` = 1. -/
theorem jsrLinksAndJumps : Obligations.JsrLinksAndJumps := by
  refine ⟨fun off11 s => ⟨_, exec_jsr .., s.link_setPc_reg_r7 _, pcRel11_eq s off11, s.link_setPc_onlyPcAndRegs _⟩,
    fun w h => ?_⟩
  have hop : field w 12 4 = 4#4 := (field_of_and_mask (by decide) h).trans (by decide)
  have h11 : bit w 11 = true := (bit_of_and_mask rfl h).trans rfl
  rw [decode_jsr hop, decodeJsr_of_bit_set h11]
  rfl

/-- Settles O47: the base is read after the link, so `link_reg` gives the target with R7 as its own case; the row fixes the
opcode and `w[11]` = 0. -/
theorem jsrrLinksThenReadsTheBase : Obligations.JsrrLinksThenReadsTheBase := by
  refine ⟨fun dcHi b dcLo s => ⟨_, exec_jsrr .., s.link_setPc_reg_r7 _, s.link_reg b, s.link_setPc_onlyPcAndRegs _⟩,
    fun w h => ?_⟩
  have hop : field w 12 4 = 4#4 := (field_of_and_mask (by decide) h).trans (by decide)
  have h11 : bit w 11 = false := (bit_of_and_mask rfl h).trans rfl
  rw [decode_jsr hop, decodeJsr_of_bit_clear h11]
  rfl

end Machine

end Sys2Proof
end

section
/-!
SUPPORT. The TRAP routines (spec 44_trap): the decoder of a word of opcode 15, the frame every TRAP shares, each routine as
the optional link and one shared operation, what a scan of memory outputs, the console channels over a step, the wait of an
input request, and the run of a string without a terminator.
-/

namespace Sys2Proof

/-! ### Words of opcode 15 -/

theorem TrapRoutine.ofVector_eq_none {v : BitVec 8} (h : v.toNat < 0x20 ∨ 0x25 < v.toNat) :
    TrapRoutine.ofVector v = none := by
  rw [TrapRoutine.ofVector_none_iff, namedVector, Bool.and_eq_false_iff, decide_eq_false_iff_not, decide_eq_false_iff_not,
    BitVec.not_le, BitVec.not_le]
  exact h

theorem trapVector_decode_of_trap {w : Word} (h : field w 12 4 = 15#4) : trapVector (decode w) = some (field w 0 8) := by
  rw [decode_trap h, trapVector_decodeTrap]

namespace Machine

/-- The row of a routine's word, from the opcode and the vector (44_trap R114). -/
theorem rowDecodes_routine (q : TrapRoutine) {x : Word} (hop : field x 12 4 = 15#4) (hv : field x 0 8 = q.vector) :
    RowDecodes 0xF0FF#16 x fun w => q.instr (w.extractLsb' 8 4) := by
  intro w h
  have hw : trapVector (decode w) = some q.vector := by
    rw [trapVector_decode_of_trap ((field_of_and_mask (by decide) h).trans hop),
      (field_of_and_mask (by decide) h).trans hv]
  exact decode_of_named_vector hw q.ofVector_vector

/-! ### The frame every TRAP shares -/

/-- With the registers the link left, no register but R7 has changed. -/
theorem regsSameBut_r7_of_regs {s t : State} (h : t.regs = s.trapLink.regs) : RegsSameBut [.r7] s t := by
  intro r hr
  rw [State.reg_eq, h, ← State.reg_eq, State.trapLink_reg, if_neg fun hl => hr (List.mem_singleton.mpr hl.2)]

theorem routineOf_regsSameBut (v : BitVec 8) (s : State) : RegsSameBut [.r0, .r7] s (routineOf v s.trapLink) := by
  intro r hr
  obtain ⟨h0, h7⟩ : r ≠ .r0 ∧ r ≠ .r7 := by simpa using hr
  rw [routineOf_reg v _ h0, State.trapLink_reg, if_neg fun hl => h7 hl.2]

theorem routineOf_trapFrame (v : BitVec 8) (s : State) : TrapFrame s (routineOf v s.trapLink) := by
  obtain ⟨hpc, hcond, hmem, hir, hconfig⟩ := routineOf_frame v s.trapLink
  refine ⟨fun a => ?_, hcond.trans s.trapLink_cond, hpc.trans s.trapLink_pc, hir.trans s.trapLink_ir,
    hconfig.trans s.trapLink_config, ?_⟩
  · rw [State.readMem_eq, hmem, State.trapLink_mem, State.readMem_eq]
  · rw [routineOf_reg v _ (by decide), State.trapLink_reg]
    simp

/-- What every instruction of opcode 15 leaves unchanged, R0 and R7 apart (44_trap R114). -/
theorem trap_frame_of_exec {i : Instr} {v : BitVec 8} {s t : State} (hi : trapVector i = some v) (h : exec i s = .next t) :
    RegsSameBut [.r0, .r7] s t ∧ TrapFrame s t := by
  rw [exec_of_trapVector s hi] at h
  cases h
  exact ⟨routineOf_regsSameBut v s, routineOf_trapFrame v s⟩

/-! ### The routines, each as the link and one shared operation -/

theorem exec_getc (dc : BitVec 4) (s : State) : exec (.getc dc) s = .next (s.trapLink.awaitByte .getc finishGetc) := rfl

theorem exec_in (dc : BitVec 4) (s : State) :
    exec (.in_ dc) s = .next ((s.trapLink.outBytes s.config.inPrompt).awaitByte .in_ finishIn) := by
  rw [← State.trapLink_config]; rfl

theorem exec_out (dc : BitVec 4) (s : State) :
    exec (.out dc) s = .next (s.trapLink.outBytes [lowByte (s.trapLink.reg .r0)]) := rfl

theorem exec_puts (dc : BitVec 4) (s : State) : exec (.puts dc) s = .next (s.trapLink.outputString .puts putsBytes) := rfl

theorem exec_putsp (dc : BitVec 4) (s : State) : exec (.putsp dc) s = .next (s.trapLink.outputString .putsp putspBytes) := rfl

theorem exec_halt (dc : BitVec 4) (s : State) : exec (.halt dc) s = .next s.trapLink.halt := rfl

theorem exec_trap_unknown {v : BitVec 8} (dc : BitVec 4) (s : State) (h : TrapRoutine.ofVector v = none) :
    exec (.trap dc v) s = .next (s.trapLink.raise .invalidTrapVector) := by
  rw [exec_of_trapVector s rfl, routineOf, h]

/-! ### What a scan outputs -/

@[simp] theorem State.trapLink_reg_r0 (s : State) : s.trapLink.reg .r0 = s.reg .r0 := by
  simp [State.trapLink_reg]

/-- The scan of a string with a terminator (44_trap R118, R120). -/
theorem scan_of_stringLength {s : State} {a : Word} {n : Nat} (emit : Word → List Byte) (h : StringLength s a n) :
    scan emit s.mem addressCount a = ⟨(List.range n).flatMap fun j => emit (wordAt s a j), true⟩ := by
  obtain ⟨hn, hzero, hbefore⟩ := h
  exact scan_of_terminator emit s.mem addressCount n a hn hzero hbefore

/-- One pass of the scan when no word ends it (44_trap R123). -/
theorem scan_of_unterminated {s : State} (emit : Word → List Byte) (a : Word) (h : Unterminated s) :
    scan emit s.mem addressCount a = ⟨(List.range addressCount).flatMap fun j => emit (wordAt s a j), false⟩ :=
  scan_no_terminator emit s.mem addressCount a fun _ _ => h _

@[simp] theorem State.outputString_output (s : State) (k : Hold) (emit : Word → List Byte) :
    (s.outputString k emit).output = s.output ++ (scan emit s.mem addressCount (s.reg .r0)).bytes := rfl

@[simp] theorem State.outputString_hold (s : State) (k : Hold) (emit : Word → List Byte) :
    (s.outputString k emit).hold = if (scan emit s.mem addressCount (s.reg .r0)).ended then none else some k := rfl

theorem putsBytes_flatMap (f : Nat → Word) (l : List Nat) :
    (l.flatMap fun j => putsBytes (f j)) = l.map fun j => (f j).extractLsb' 0 8 :=
  List.map_eq_flatMap.symm

theorem highByte_eq_zero_iff (w : Word) : highByte w = 0#8 ↔ w.toNat < 256 := by
  rw [← BitVec.toNat_inj, highByte, field, BitVec.extractLsb'_toNat, Nat.shiftRight_eq_div_pow]
  have := w.isLt
  simp only [BitVec.toNat_ofNat]
  omega

theorem putspBytes_eq_packedBytes (w : Word) : putspBytes w = packedBytes w := by
  unfold putspBytes packedBytes
  simp only [highByte_eq_zero_iff]
  split <;> rfl

theorem one_le_putsBytes_length (w : Word) : 1 ≤ (putsBytes w).length := Nat.le_refl 1

theorem one_le_putspBytes_length (w : Word) : 1 ≤ (putspBytes w).length := Nat.le_add_left 1 _

section
variable {i : Instr} {v : BitVec 8} {s : State} {k : Hold} {emit : Word → List Byte}

/-- A pass of a string instruction changes R7, the output and the step in progress alone. -/
theorem exec_string_frame (hi : trapVector i = some v) (he : exec i s = .next (s.trapLink.outputString k emit)) :
    RegsSameBut [.r7] s (s.trapLink.outputString k emit) ∧ TrapFrame s (s.trapLink.outputString k emit) ∧
      (s.trapLink.outputString k emit).runState = s.runState ∧ (s.trapLink.outputString k emit).input = s.input := by
  obtain ⟨-, hframe⟩ := trap_frame_of_exec hi he
  exact ⟨regsSameBut_r7_of_regs rfl, hframe, s.trapLink_runState, s.trapLink_input⟩

/-- A string instruction whose string has a terminator outputs what stands before it and ends its step. -/
theorem exec_string_of_stringLength {n : Nat} (hi : trapVector i = some v)
    (he : exec i s = .next (s.trapLink.outputString k emit)) (h : StringLength s (s.reg .r0) n) :
    ∃ t, exec i s = .next t ∧
      t.output = s.output ++ ((List.range n).flatMap fun j => emit (wordAt s (s.reg .r0) j)) ∧ t.hold = none ∧
      RegsSameBut [.r7] s t ∧ TrapFrame s t ∧ t.runState = s.runState ∧ t.input = s.input := by
  have hscan := scan_of_stringLength emit h
  exact ⟨_, he, by simp [hscan], by simp [hscan], exec_string_frame hi he⟩

/-- A string instruction that finds no terminator outputs a whole pass and stays in progress. -/
theorem exec_string_of_unterminated (hi : trapVector i = some v)
    (he : exec i s = .next (s.trapLink.outputString k emit)) (h : Unterminated s) :
    ∃ t, exec i s = .next t ∧ t.hold = some k ∧
      t.output = s.output ++ ((List.range addressCount).flatMap fun j => emit (wordAt s (s.reg .r0) j)) ∧
      RegsSameBut [.r7] s t ∧ TrapFrame s t ∧ t.runState = s.runState ∧ t.input = s.input := by
  have hscan := scan_of_unterminated emit (s.reg .r0) h
  exact ⟨_, he, by simp [hscan], by simp [hscan], exec_string_frame hi he⟩

end

/-! ### The console channels over a step -/

/-- The output has grown at its end, at most the oldest answer has been taken, and the parameters are the same
(44_trap R113, R115; 00_scope R6). -/
def ConsoleAdvances (s t : State) : Prop :=
  (∃ bs, t.output = s.output ++ bs) ∧ (t.input = s.input ∨ ∃ a, s.input = a :: t.input) ∧ t.config = s.config

theorem ConsoleAdvances.of_append {s t : State} {bs : List Byte} (hout : t.output = s.output ++ bs)
    (hin : t.input = s.input) (hc : t.config = s.config) : ConsoleAdvances s t := ⟨⟨bs, hout⟩, .inl hin, hc⟩

theorem ConsoleAdvances.of_same {s t : State} (hout : t.output = s.output) (hin : t.input = s.input)
    (hc : t.config = s.config) : ConsoleAdvances s t := .of_append (bs := []) (by simpa using hout) hin hc

/-- Output before an advance is part of the advance. -/
theorem ConsoleAdvances.of_outBytes {s t : State} {bs : List Byte} (h : ConsoleAdvances (s.outBytes bs) t) :
    ConsoleAdvances s t := by
  obtain ⟨⟨cs, hout⟩, hin, hc⟩ := h
  exact ⟨⟨bs ++ cs, by simpa using hout⟩, hin, hc⟩

theorem ConsoleAdvances.of_trapLink {s t : State} (h : ConsoleAdvances s.trapLink t) : ConsoleAdvances s t := by
  simpa [ConsoleAdvances] using h

/-- An input request takes the oldest answer or none (44_trap R115), if what follows it only outputs. -/
theorem State.awaitByte_consoleAdvances (s : State) (k : Hold) {f : Byte → State → State}
    (hf : ∀ b u, (∃ bs, (f b u).output = u.output ++ bs) ∧ (f b u).input = u.input ∧ (f b u).config = u.config) :
    ConsoleAdvances s (s.awaitByte k f) := by
  unfold State.awaitByte
  split
  case h_1 => exact .of_same rfl rfl rfl
  case h_2 b rest hin =>
    obtain ⟨hout, hrest, hc⟩ := hf b ((s.setInput rest).setHold none)
    exact ⟨hout, .inr ⟨_, hin.trans (by rw [hrest]; rfl)⟩, hc⟩
  case h_3 hin | h_4 hin => exact ⟨⟨[], (List.append_nil _).symm⟩, .inr ⟨_, hin⟩, rfl⟩

theorem State.awaitGetc_consoleAdvances (s : State) : ConsoleAdvances s s.awaitGetc :=
  s.awaitByte_consoleAdvances .getc fun _ u => ⟨⟨[], (List.append_nil u.output).symm⟩, rfl, rfl⟩

theorem State.awaitIn_consoleAdvances (s : State) : ConsoleAdvances s s.awaitIn :=
  s.awaitByte_consoleAdvances .in_ fun b _ => ⟨⟨[b], rfl⟩, rfl, rfl⟩

theorem State.outputString_consoleAdvances (s : State) (k : Hold) (emit : Word → List Byte) :
    ConsoleAdvances s (s.outputString k emit) := .of_append (s.outputString_output k emit) rfl rfl

theorem routineOf_consoleAdvances (v : BitVec 8) (s : State) : ConsoleAdvances s (routineOf v s) := by
  unfold routineOf
  split
  case h_1 => exact s.awaitGetc_consoleAdvances
  case h_2 => exact .of_append rfl rfl rfl
  case h_3 | h_5 => exact s.outputString_consoleAdvances ..
  case h_4 => exact .of_outBytes (State.awaitIn_consoleAdvances _)
  case h_6 | h_7 => exact .of_same rfl rfl rfl

theorem exec_consoleAdvances {i : Instr} {s t : State} (h : exec i s = .next t) : ConsoleAdvances s t := by
  cases effect_of_exec h with
  | result | store | jump | call | reserved => exact .of_same rfl rfl rfl
  | trap => exact .of_trapLink (routineOf_consoleAdvances ..)

theorem resumeStep_consoleAdvances {k : Hold} {s t : State} (h : resumeStep k s = .next t) : ConsoleAdvances s t := by
  cases k with
  | getc => cases h; exact s.awaitGetc_consoleAdvances
  | in_ => cases h; exact s.awaitIn_consoleAdvances
  | puts | putsp => cases h; exact s.outputString_consoleAdvances ..

/-! ### The wait of an input request -/

theorem State.trapLink_answer (s : State) (a : InAnswer) : (s.answer a).trapLink = s.trapLink.answer a := by
  unfold State.trapLink State.answer
  rw [State.setInput_config]
  split <;> rfl

/-- An answered request does not read what step was in progress. -/
theorem State.awaitByte_setHold {s : State} (k : Hold) (f : Byte → State → State) (h : Option Hold) (hin : s.input ≠ []) :
    (s.setHold h).awaitByte k f = s.awaitByte k f := by
  unfold State.awaitByte
  rw [State.setHold_input]
  split
  case h_1 hnil => exact absurd hnil hin
  all_goals rfl

/-- R0 after GETC or IN has its byte (44_trap R116). -/
theorem setReg_zextByte_toNat (s : State) (b : Byte) : ((s.setReg .r0 (zextByte b)).reg .r0).toNat = b.toNat := by
  rw [State.reg_eq, State.setReg_regs, RegFile.get_set_same, zextByte, BitVec.toNat_setWidth_of_le (by decide)]

theorem exists_failing_answer {s : State} {rest : List InAnswer}
    (h : s.input = .endOfStream :: rest ∨ s.input = .failure :: rest) :
    ∃ a, s.input = a :: rest ∧ (a = .endOfStream ∨ a = .failure) :=
  h.elim (fun he => ⟨_, he, .inl rfl⟩) fun hf => ⟨_, hf, .inr rfl⟩

section
variable {s : State} {k : Hold} {f : Byte → State → State}

/-- A held request asks again and changes nothing (44_trap R115; log entry 6). -/
theorem step_held_unanswered (hk : ∀ u, resumeStep k u = .next (u.awaitByte k f)) (hr : s.runState = .running)
    (hin : s.input = []) : step (s.setHold (some k)) = .next (s.setHold (some k)) := by
  rw [step_held (s := s.setHold (some k)) hr rfl, hk, State.awaitByte_none (s := s.setHold (some k)) k f hin]
  rfl

/-- A held request goes on from an answer as if the answer had been there when it was made (44_trap R115). -/
theorem step_held_answered (hk : ∀ u, resumeStep k u = .next (u.awaitByte k f)) (hr : s.runState = .running)
    (a : InAnswer) : step ((s.setHold (some k)).answer a) = .next ((s.answer a).awaitByte k f) := by
  rw [step_held (s := (s.setHold (some k)).answer a) hr rfl, hk]
  exact congrArg _ ((s.answer a).awaitByte_setHold k f (some k) (by simp [State.answer]))

end

/-! ### A string without a terminator -/

theorem unterminated_of_mem_eq {s t : State} (h : t.mem = s.mem) (hs : Unterminated s) : Unterminated t := by
  intro a
  rw [State.readMem_eq, h]
  exact hs a

/-- `t` is reached from `s` by a fetch, the optional link and `n` passes of a scan: the output is longer by at least a byte
for each word of each pass, and nothing else but IR, R7 and the step in progress has changed (44_trap R123). -/
structure AfterPasses (s : State) (n : Nat) (t : State) : Prop where
  running : t.runState = .running
  output_le : s.output.length + 65536 * n ≤ t.output.length
  pc : t.pc = s.pc + 1#16
  regs : RegsSameBut [.r7] s t
  mem : t.mem = s.mem
  cond : t.cond = s.cond
  input : t.input = s.input

/-- The state in which a string routine begins. -/
theorem AfterPasses.start {s : State} (h : s.runState = .running) : AfterPasses s 0 s.fetch.trapLink where
  running := by simpa using h
  output_le := by simp
  pc := by simp
  regs := regsSameBut_r7_of_regs (s := s.fetch) rfl
  mem := by simp
  cond := by simp
  input := by simp

section
variable {s t : State} {n : Nat} {k : Hold} {emit : Word → List Byte}

/-- One more pass. -/
theorem AfterPasses.outputString (h : AfterPasses s n t) (hu : Unterminated t) (hemit : ∀ w, 1 ≤ (emit w).length) :
    AfterPasses s (n + 1) (t.outputString k emit) where
  running := h.running
  output_le := by
    have hpass := length_le_flatMap (fun j => emit (wordAt t (t.reg .r0) j)) (fun _ => hemit _) (List.range addressCount)
    have hbefore := h.output_le
    have hcount : addressCount = 65536 := rfl
    rw [List.length_range] at hpass
    simp only [State.outputString_output, scan_of_unterminated emit _ hu, List.length_append]
    omega
  pc := h.pc
  regs := h.regs
  mem := h.mem
  cond := h.cond
  input := h.input

theorem State.outputString_hold_of_unterminated (h : Unterminated s) : (s.outputString k emit).hold = some k := by
  rw [State.outputString_hold, scan_of_unterminated emit _ h]
  rfl

/-- A string routine that begins in an unterminated memory makes one pass with every step, without end (44_trap R123). -/
theorem stepN_of_unterminated (hr : s.runState = .running) (hu : Unterminated s)
    (hfirst : step s = .next (s.fetch.trapLink.outputString k emit))
    (hk : ∀ u, resumeStep k u = .next (u.outputString k emit)) (hemit : ∀ w, 1 ≤ (emit w).length) (n : Nat) :
    ∃ t, stepN (n + 1) s = .next t ∧ t.hold = some k ∧ AfterPasses s (n + 1) t := by
  induction n with
  | zero =>
    have hstart := AfterPasses.start hr
    have hu' := unterminated_of_mem_eq hstart.mem hu
    exact ⟨_, (stepN_succ_of_next rfl).trans hfirst, State.outputString_hold_of_unterminated hu',
      hstart.outputString hu' hemit⟩
  | succ n ih =>
    obtain ⟨t, hrun, hhold, hpasses⟩ := ih
    have hu' := unterminated_of_mem_eq hpasses.mem hu
    have hstep : step t = .next (t.outputString k emit) := by rw [step_held hpasses.running hhold, hk]
    exact ⟨_, (stepN_succ_of_next hrun).trans hstep, State.outputString_hold_of_unterminated hu',
      hpasses.outputString hu' hemit⟩

end

/-! ### The obligations of 44_trap -/

/-- Settles O26, by the three cases of a step: every handler and every step in progress advances the channels in order. -/
theorem consoleChannelsKeepTheirOrder : Obligations.ConsoleChannelsKeepTheirOrder := by
  intro s t h
  rcases step_cases h with ⟨-, he⟩ | ⟨k, -, -, hk⟩ | rfl
  · exact exec_consoleAdvances (s := s.fetch) he
  · exact resumeStep_consoleAdvances hk
  · exact ConsoleAdvances.of_same rfl rfl rfl

/-- Settles O49: a vector of no routine raises the error after the link, and its word decodes to TRAP. -/
theorem unknownVectorRaisesInvalidTrapVector : Obligations.UnknownVectorRaisesInvalidTrapVector := by
  refine ⟨fun dc v s hv => ?_, fun w hop hv => ?_⟩
  · have he := exec_trap_unknown dc s (TrapRoutine.ofVector_eq_none hv)
    obtain ⟨-, hframe⟩ := trap_frame_of_exec rfl he
    exact ⟨_, he, by simp, hframe, regsSameBut_r7_of_regs rfl, ⟨s.trapLink_input, s.trapLink_output⟩, s.trapLink_hold⟩
  · have h15 : field w 12 4 = 15#4 := (field_of_and_mask (by decide) hop).trans (by decide)
    exact decode_of_unknown_vector (trapVector_decode_of_trap h15) (TrapRoutine.ofVector_eq_none hv)

/-- Settles O50: the frame of every routine; TRAP with a routine's vector and the routine's instruction are one handler; and
each row fixes the opcode and the vector. -/
theorem vectorSelectsTheRoutine : Obligations.VectorSelectsTheRoutine :=
  ⟨fun _ v s => ⟨_, rfl, routineOf_trapFrame v s, routineOf_regsSameBut v s⟩,
    fun _ _ _ => ⟨rfl, rfl, rfl, rfl, rfl, rfl⟩,
    rowDecodes_routine .getc (by decide) (by decide), rowDecodes_routine .out (by decide) (by decide),
    rowDecodes_routine .puts (by decide) (by decide), rowDecodes_routine .in_ (by decide) (by decide),
    rowDecodes_routine .putsp (by decide) (by decide), rowDecodes_routine .halt (by decide) (by decide)⟩

/-- Settles O51: the request with a byte finishes, and with an answer that ends or fails it raises IOFailure. -/
theorem getcReadsOneByte : Obligations.GetcReadsOneByte := by
  refine fun dc s rest => ⟨fun b hb => ?_, fun hfail => ?_⟩
  · have he : exec (.getc dc) s = .next (finishGetc b ((s.trapLink.setInput rest).setHold none)) :=
      (exec_getc dc s).trans (congrArg Host.Outcome.next (State.awaitByte_byte _ _ (s.trapLink_input.trans hb)))
    obtain ⟨hregs, hframe⟩ := trap_frame_of_exec rfl he
    exact ⟨_, he, setReg_zextByte_toNat .., hregs, hframe, s.trapLink_runState, rfl, rfl, s.trapLink_output⟩
  · obtain ⟨a, hin, ha⟩ := exists_failing_answer hfail
    have he : exec (.getc dc) s = .next (((s.trapLink.setInput rest).setHold none).raise .ioFailure) :=
      (exec_getc dc s).trans (congrArg Host.Outcome.next (State.awaitByte_fail _ _ (s.trapLink_input.trans hin) ha))
    obtain ⟨-, hframe⟩ := trap_frame_of_exec rfl he
    exact ⟨_, he, by simp, regsSameBut_r7_of_regs rfl, hframe, rfl, rfl, s.trapLink_output⟩

/-- Settles O52: the routine outputs the low byte of R0, which the link leaves alone. -/
theorem outWritesTheLowByte : Obligations.OutWritesTheLowByte := by
  intro dc s
  have he := exec_out dc s
  obtain ⟨-, hframe⟩ := trap_frame_of_exec rfl he
  exact ⟨_, he, by simp [lowByte, field], regsSameBut_r7_of_regs rfl, hframe, s.trapLink_runState, s.trapLink_hold,
    s.trapLink_input⟩

/-- Settles O53: a scan that outputs one byte a word. -/
theorem putsWritesLowBytes : Obligations.PutsWritesLowBytes := by
  intro dc s
  simp only [← putsBytes_flatMap]
  exact ⟨fun _ => exec_string_of_stringLength rfl (exec_puts dc s), exec_string_of_unterminated rfl (exec_puts dc s)⟩

/-- Settles O54: the prompt is output before the request, which then finishes with the echo or raises IOFailure. -/
theorem inPromptsReadsAndEchoes : Obligations.InPromptsReadsAndEchoes := by
  refine fun dc s rest => ⟨fun b hb => ?_, fun hfail => ?_⟩
  · have he : exec (.in_ dc) s =
        .next (finishIn b (((s.trapLink.outBytes s.config.inPrompt).setInput rest).setHold none)) :=
      (exec_in dc s).trans (congrArg Host.Outcome.next (State.awaitByte_byte _ _ (s.trapLink_input.trans hb)))
    obtain ⟨hregs, hframe⟩ := trap_frame_of_exec rfl he
    exact ⟨_, he, setReg_zextByte_toNat .., by simp [finishIn], hregs, hframe, s.trapLink_runState, rfl, rfl⟩
  · obtain ⟨a, hin, ha⟩ := exists_failing_answer hfail
    have he : exec (.in_ dc) s =
        .next ((((s.trapLink.outBytes s.config.inPrompt).setInput rest).setHold none).raise .ioFailure) :=
      (exec_in dc s).trans (congrArg Host.Outcome.next (State.awaitByte_fail _ _ (s.trapLink_input.trans hin) ha))
    obtain ⟨-, hframe⟩ := trap_frame_of_exec rfl he
    exact ⟨_, he, by simp, by simp, regsSameBut_r7_of_regs rfl, hframe, rfl, rfl⟩

/-- Settles O55: a scan that outputs the packed bytes of a word. -/
theorem putspWritesPackedBytes : Obligations.PutspWritesPackedBytes := by
  intro dc s
  simp only [← putspBytes_eq_packedBytes]
  exact ⟨fun _ => exec_string_of_stringLength rfl (exec_putsp dc s), exec_string_of_unterminated rfl (exec_putsp dc s)⟩

/-- Settles O56: the routine writes the run state alone. -/
theorem haltStopsTheMachine : Obligations.HaltStopsTheMachine := by
  intro dc s
  have he := exec_halt dc s
  obtain ⟨-, hframe⟩ := trap_frame_of_exec rfl he
  exact ⟨_, he, rfl, regsSameBut_r7_of_regs rfl, hframe, ⟨s.trapLink_input, s.trapLink_output⟩, s.trapLink_hold⟩

/-- Settles O57: GETC requests after the link and IN after the link and the prompt, neither of which an answer affects; the
held request then goes on as the request itself would have. -/
theorem inputWaitHoldsUntilAnswered : Obligations.InputWaitHoldsUntilAnswered := by
  intro dc s hr hnil
  have hrun : s.trapLink.runState = .running := s.trapLink_runState.trans hr
  have hin : s.trapLink.input = [] := s.trapLink_input.trans hnil
  constructor
  · have he : exec (.getc dc) s = .next (s.trapLink.setHold (some .getc)) :=
      (exec_getc dc s).trans (congrArg Host.Outcome.next (State.awaitByte_none _ _ hin))
    obtain ⟨-, hframe⟩ := trap_frame_of_exec rfl he
    refine ⟨_, he, rfl, by simp [State.inReq, hnil], hrun, s.trapLink_output, regsSameBut_r7_of_regs rfl, hframe,
      step_held_unanswered (fun _ => rfl) hrun hin, fun a => ?_⟩
    rw [exec_getc, State.trapLink_answer]
    exact step_held_answered (fun _ => rfl) hrun a
  · have he : exec (.in_ dc) s = .next ((s.trapLink.outBytes s.config.inPrompt).setHold (some .in_)) :=
      (exec_in dc s).trans (congrArg Host.Outcome.next (State.awaitByte_none _ _ hin))
    obtain ⟨-, hframe⟩ := trap_frame_of_exec rfl he
    refine ⟨_, he, rfl, by simp [State.inReq, hnil], hrun, by simp, regsSameBut_r7_of_regs rfl, hframe,
      step_held_unanswered (fun _ => rfl) hrun hin, fun a => ?_⟩
    rw [exec_in, State.trapLink_answer]
    exact step_held_answered (s := s.trapLink.outBytes s.config.inPrompt) (fun _ => rfl) hrun a

/-- Settles O58: PUTS and PUTSP are the two scans, each of at least one byte a word. -/
theorem unterminatedStringNeverCompletes : Obligations.UnterminatedStringNeverCompletes := by
  rintro s hs ⟨dc, hdec⟩ hu n
  have hstep : step s = exec (decode (s.readMem s.pc)) s.fetch := step_ready hs
  obtain ⟨k, t, hrun, hhold, ht⟩ : ∃ k t, stepN (n + 1) s = .next t ∧ t.hold = some k ∧ AfterPasses s (n + 1) t := by
    rcases hdec with hdec | hdec
    · rw [hdec, exec_puts] at hstep
      exact ⟨_, stepN_of_unterminated hs.1 hu hstep (fun _ => rfl) one_le_putsBytes_length n⟩
    · rw [hdec, exec_putsp] at hstep
      exact ⟨_, stepN_of_unterminated hs.1 hu hstep (fun _ => rfl) one_le_putspBytes_length n⟩
  exact ⟨t, hrun, ht.running, by simp [hhold], ht.output_le, ht.pc, ht.regs, fun a => congrArg (·.read a) ht.mem, ht.cond,
    ht.input⟩

end Machine

end Sys2Proof
end

section
/-!
SUPPORT. The outcomes of a step (spec 60_exceptions): the handler of an instruction and the step in progress both answer a next
state, so every step does.
-/

namespace Sys2Proof.Machine

/-- A step in progress answers a next state, with its answer or its terminator or still without (log entries 6, 7). -/
theorem exists_resumeStep_next (k : Hold) (s : State) : ∃ t, resumeStep k s = .next t := by
  cases k with
  | getc | in_ | puts | putsp => exact ⟨_, rfl⟩

/-! ### The obligation of 60_exceptions -/

/-- Settles O16: a step is a handler, which answers by one of its effects, or a step in progress, or nothing. -/
theorem everyStepAnswersANextState : Obligations.EveryStepAnswersANextState := by
  intro s
  by_cases hr : s.runState = .running
  · cases hk : s.hold with
    | none =>
      rw [step_ready ⟨hr, hk⟩]
      obtain ⟨t, ht, -⟩ := exec_effect s.fetch.latched s.fetch
      exact ⟨t, ht⟩
    | some k =>
      rw [step_held hr hk]
      exact exists_resumeStep_next k s
  · exact ⟨s, step_ended hr⟩

end Sys2Proof.Machine
end

section
/-!
SUPPORT. The loader (spec 70_reset_and_hazards R149 to R151): an odd image has no words and an even one has a word per byte
pair; both origin modes then come to the same checked load of a block into the reset state.
-/

namespace Sys2Proof.Machine

/-! ### The image as words -/

/-- An odd length leaves a byte over at the end, however many pairs go before it (R150). -/
theorem imageWords_of_odd (image : List Byte) (h : image.length % 2 = 1) : imageWords image = none := by
  induction image using imageWords.induct with
  | case1 => simp at h
  | case2 => rfl
  | case3 hi lo rest ih =>
    have hrest : rest.length % 2 = 1 := by simp only [List.length_cons] at h; omega
    rw [imageWords, ih hrest, Option.map_none]

/-- Word `i` of an even image is its byte pair `i`, high byte first (R150); past the end both sides are 0. -/
theorem imageWords_of_even (image : List Byte) (h : image.length % 2 = 0) : ∃ ws, imageWords image = some ws ∧
    ws.length = image.length / 2 ∧
    ∀ i, ws.getD i 0x0000#16 = wordOfBytes (image.getD (2 * i) 0#8) (image.getD (2 * i + 1) 0#8) := by
  induction image using imageWords.induct with
  | case1 => exact ⟨[], rfl, rfl, fun _ => by simp only [List.getD_nil]; decide⟩
  | case2 => simp at h
  | case3 hi lo rest ih =>
    have hrest : rest.length % 2 = 0 := by simp only [List.length_cons] at h; omega
    obtain ⟨ws, hws, hlen, hget⟩ := ih hrest
    refine ⟨wordOfBytes hi lo :: ws, by rw [imageWords, hws, Option.map_some], ?_, fun i => ?_⟩
    · simp only [List.length_cons]; omega
    · cases i with
      | zero => rfl
      | succ i => exact hget i

/-! ### The checked load -/

/-- `t` is the reset state of `c` with the bytes placed from `base` on as big-endian pairs (R149, R150). -/
def ResetWithImage (c : Config) (base : Word) (bytes : List Byte) (t : State) : Prop :=
  (∀ i, i < bytes.length / 2 → (t.readMem (base + BitVec.ofNat 16 i)).toNat =
    256 * (bytes.getD (2 * i) 0#8).toNat + (bytes.getD (2 * i + 1) 0#8).toNat) ∧
  (∀ a : Word, bytes.length / 2 ≤ (a - base).toNat → t.readMem a = 0x0000#16) ∧
  { t with mem := Memory.empty } = State.resetWith c

theorem State.loadChecked_of_fits {base : Word} {ws : List Word} (s : State) (h : ws.length ≤ 65536 - base.toNat) :
    s.loadChecked base ws = .ok (s.load base ws) :=
  if_pos ((fitsAt_iff base _).mpr h)

theorem State.loadChecked_of_not_fits {base : Word} {ws : List Word} (s : State) (h : 65536 - base.toNat < ws.length) :
    s.loadChecked base ws = .error .malformedImage :=
  if_neg fun hfit => Nat.not_le_of_lt h ((fitsAt_iff base _).mp hfit)

/-- Both origin modes come to this: an even run of bytes that fits above `base`, loaded there after reset. -/
theorem loadChecked_resetWith (c : Config) (base : Word) (bytes : List Byte) (heven : bytes.length % 2 = 0)
    (hfit : bytes.length / 2 ≤ 65536 - base.toNat) : ∃ ws t, imageWords bytes = some ws ∧
      (State.resetWith c).loadChecked base ws = .ok t ∧ ResetWithImage c base bytes t := by
  obtain ⟨ws, hws, hlen, hget⟩ := imageWords_of_even bytes heven
  refine ⟨ws, _, hws, State.loadChecked_of_fits _ (hlen ▸ hfit), fun i hi => ?_, fun a ha => ?_,
    State.load_frame ws (State.resetWith c) base⟩
  · have hoff : (base + BitVec.ofNat 16 i - base).toNat = i := by
      rw [BitVec.add_comm, BitVec.add_sub_cancel, BitVec.toNat_ofNat, Nat.mod_eq_of_lt (by omega)]
    rw [State.load_read _ _ _ _ (by omega), hoff, if_pos (by omega), hget, wordOfBytes_toNat]
  · rw [State.load_read _ _ _ _ (by omega), if_neg (by omega)]
    rfl

/-! ### The boot -/

theorem boot_of_odd (c : Config) {image : List Byte} (h : image.length % 2 = 1) : boot c image = .error .malformedImage := by
  rw [boot, State.loadImage, imageWords_of_odd image h]

theorem boot_of_fixedStart {c : Config} {image : List Byte} {ws : List Word} (hc : c.loaderOriginMode = .fixedStart)
    (h : imageWords image = some ws) : boot c image = (State.resetWith c).loadChecked c.pcStart ws := by
  have hmode : (State.resetWith c).config.loaderOriginMode = .fixedStart := hc
  simp only [boot, State.loadImage, h, State.loadWords, hmode]
  rfl

theorem boot_of_originWord {c : Config} {hi lo : Byte} {rest : List Byte} {ws : List Word}
    (hc : c.loaderOriginMode = .originWord) (h : imageWords rest = some ws) :
    boot c (hi :: lo :: rest) = (State.resetWith c).loadChecked (wordOfBytes hi lo) ws := by
  have hmode : (State.resetWith c).config.loaderOriginMode = .originWord := hc
  simp only [boot, State.loadImage, imageWords, h, Option.map_some, State.loadWords, hmode]

/-! ### The obligations of 70_reset_and_hazards -/

/-- Settles O29: an odd image has no words and an oversized one fails the fit check; any other is loaded at `PC_START`. -/
theorem bootPlacesTheImage : Obligations.BootPlacesTheImage := by
  intro c image hc
  refine ⟨fun hbad => ?_, fun heven hfit => ?_⟩
  · rcases Nat.mod_two_eq_zero_or_one image.length with heven | hodd
    · have hlarge : 65536 - c.pcStart.toNat < image.length / 2 := by omega
      obtain ⟨ws, hws, hlen, -⟩ := imageWords_of_even image heven
      rw [boot_of_fixedStart hc hws]
      exact State.loadChecked_of_not_fits _ (hlen ▸ hlarge)
    · exact boot_of_odd c hodd
  · obtain ⟨ws, t, hws, ht, himage⟩ := loadChecked_resetWith c c.pcStart image heven hfit
    exact ⟨t, (boot_of_fixedStart hc hws).trans ht, himage⟩

/-- Settles O30: the words after the first are loaded at the address the first gives. -/
theorem bootHonoursTheOriginWord : Obligations.BootHonoursTheOriginWord := by
  intro c hi lo rest hc heven hfit
  obtain ⟨ws, t, hws, ht, himage⟩ := loadChecked_resetWith c (wordOfBytes hi lo) rest heven hfit
  exact ⟨t, (boot_of_originWord hc hws).trans ht, wordOfBytes_toNat hi lo, himage⟩

end Sys2Proof.Machine
end

section
/-!
SUPPORT. The words the spec writes out (95_test_vectors): closed instances of the decoder, each settled by running it.
-/

namespace Sys2Proof

/-- Settles O5: the decoder is run on each of the eleven words. -/
theorem specWordsDecodeAsNamed : Obligations.SpecWordsDecodeAsNamed :=
  ⟨rfl, rfl, rfl, rfl, rfl, rfl, rfl, rfl, rfl, rfl, rfl⟩

end Sys2Proof
end
